-- ==== Sys2Proof/Word.lean ====
section
/-!
DEFINITION. The widths of the block's data (spec/00_scope.md R9, R11; spec/10_state.md R20): nothing but names of types.
-/

namespace Sys2Proof

/-- "A byte is 8 bits, an unsigned value 0 to 255" (R9). -/
abbrev Byte := BitVec 8

/-- A byte sequence (R11): a command packet, a response packet, a frame, a payload. -/
abbrev Packet := List Byte

/-- A frame offset or a frame length: 5 bits (R20, R51). -/
abbrev Offset := BitVec 5

/-- The 32-bit pattern of an IEEE 754 binary32 value: sign bit 31, exponent bits 30:23, fraction bits 22:0 (R14). -/
abbrev F32 := BitVec 32

end Sys2Proof
end

