-- ==== Sys2Proof/Config.lean ====
section
/-!
DEFINITION. The implementation parameters of spec/00_scope.md R7. Every one is fixed: "the model takes none as an argument
unless the table says OPEN", and no row of the table is open. Reflection and final XOR of the CRC are absent (R100), so
they have no constant here.
-/

namespace Sys2Proof.Config

/-- `CRC_POLY`: x^8 + x^5 + x^4 + 1 without its x^8 term (R7, R100). -/
def crcPoly : Byte := 0x31

/-- `CRC_INIT`: the initial register value (R7, R100). -/
def crcInit : Byte := 0x00

/-- `EXPECT_TEMPERATURE`: the status bit expected for kind Temperature (R7, R132). -/
def expectTemperature : Bool := false

/-- `EXPECT_HUMIDITY`: the status bit expected for kind Humidity (R7, R132). -/
def expectHumidity : Bool := true

/-- `T_MUL`: 175.72 rounded to binary32 (R136). -/
def tMul : F32 := 0x432FB852

/-- `T_ADD`: -46.85 rounded to binary32 (R136). -/
def tAdd : F32 := 0xC23B6666

/-- `H_MUL`: 125.0 (R136). -/
def hMul : F32 := 0x42FA0000

/-- `H_ADD`: -6.0 (R136). -/
def hAdd : F32 := 0xC0C00000

/-- `SCALE`: 65536.0 (R136). -/
def scale : F32 := 0x47800000

/-- `FRAME_CAP`: capacity of the frame buffer in bytes (R7, R161). -/
def frameCap : Nat := 23

/-- `FRAME_HDR`: bytes before the payload (R7). -/
def frameHdr : Nat := 14

/-- `FRAME_TRL`: checksum trailer bytes (R7). -/
def frameTrl : Nat := 1

/-- `MAX_PAYLOAD` = `FRAME_CAP - FRAME_HDR - FRAME_TRL` (R7, R161). -/
def maxPayload : Nat := frameCap - frameHdr - frameTrl

/-- `START_DELIM`: the byte at frame offset 0 (R7, R160). -/
def startDelim : Byte := 0x7E

/-- `FRAME_ID`: the byte at frame offset 4 (R7, R160). -/
def frameId : Byte := 0x00

/-- `OPTIONS`: the byte at frame offset 13 (R7, R160). -/
def options : Byte := 0x00

/-- `LEN_OVERHEAD`: frame type, frame id, options and the 8 destination bytes (R7, R162). -/
def lenOverhead : Nat := 11

end Sys2Proof.Config
end

