-- ==== Sys2Proof/Syntax.lean ====
section
/-!
DEFINITION. The ten instructions of spec/30_encoding.md R74, one constructor per row of spec/opcode_table.json, with the
operands of R77. Operands hold no illegal value: the kind is two-valued and the destination is 8 bytes by type, so the
encodings that R79 makes illegal are packets that no instruction stands for (log 10).
-/

namespace Sys2Proof

/-- The source's MeasurementKind, "{Temperature, Humidity}" (R16, R132); codes 0x00 and 0x01 (R77). -/
inductive MeasurementKind where
  | temperature
  | humidity
deriving DecidableEq, Repr

/-- One command of the block (R74). -/
inductive Instr where
  /-- 0x01 `SYS.STATUS` (R200). -/
  | sysStatus
  /-- 0x10 `CRC.INIT` (R103). -/
  | crcInit
  /-- 0x11 `CRC.UPDATE b`: `b` is the next data byte (R104). -/
  | crcUpdate (b : Byte)
  /-- 0x12 `CRC.READ` (R105). -/
  | crcRead
  /-- 0x13 `CRC.VERIFY e`: `e` is the expected checksum (R106). -/
  | crcVerify (e : Byte)
  /-- 0x20 `DEC.DECODE kind, msb, lsb` (R140). -/
  | decDecode (kind : MeasurementKind) (msb lsb : Byte)
  /-- 0x30 `FRM.BUILD ft, dst, payload`: the payload has any length (R77, R166). -/
  | frmBuild (ft : Byte) (dst : Vector Byte 8) (payload : List Byte)
  /-- 0x31 `FRM.LEN` (R167). -/
  | frmLen
  /-- 0x32 `FRM.NEXT` (R168). -/
  | frmNext
  /-- 0x33 `FRM.REWIND` (R169). -/
  | frmRewind
deriving DecidableEq, Repr

end Sys2Proof
end

