-- ==== Sys2Proof/WellFormed.lean ====
section
/-!
DEFINITION. Which packets are legal commands, said the way spec/opcode_table.json says it under the conventions of
spec/30_encoding.md R85: a packet selects a row when its length satisfies the row's length and its leading bytes, masked,
equal the row's match. This is the declarative check; the decoder of Decode.lean is written from the procedure of R78.
Instructions themselves (Syntax.lean) hold no ill-formed operand, so the check is on packets.
-/

namespace Sys2Proof.WellFormed

/-- A row's length column (R85): a number, or a minimum. -/
inductive LengthRule where
  | exactly (k : Nat)
  | atLeast (k : Nat)
deriving DecidableEq, Repr

/-- One row of the opcode table: `mask` and `pattern` (the table's `match`) over the leading bytes, and the length (R85). -/
structure Row where
  mask : List Byte
  pattern : List Byte
  length : LengthRule
deriving DecidableEq, Repr

/-- The ten rows of spec/opcode_table.json, in its order. -/
def rows : List Row :=
  [ ⟨[0xFF], [0x01], .exactly 1⟩,
    ⟨[0xFF], [0x10], .exactly 1⟩,
    ⟨[0xFF], [0x11], .exactly 2⟩,
    ⟨[0xFF], [0x12], .exactly 1⟩,
    ⟨[0xFF], [0x13], .exactly 2⟩,
    ⟨[0xFF, 0xFE], [0x20, 0x00], .exactly 4⟩,
    ⟨[0xFF], [0x30], .atLeast 10⟩,
    ⟨[0xFF], [0x31], .exactly 1⟩,
    ⟨[0xFF], [0x32], .exactly 1⟩,
    ⟨[0xFF], [0x33], .exactly 1⟩ ]

/-- Whether a packet of length `n` satisfies a row's length. -/
def LengthRule.admits (r : LengthRule) (n : Nat) : Bool :=
  match r with
  | .exactly k => n == k
  | .atLeast k => decide (k ≤ n)

/-- "a packet selects the row when its length satisfies `length` and `(prefix AND mask) == match`" (R85). -/
def Row.selectedBy (r : Row) (cmd : Packet) : Bool :=
  r.length.admits cmd.length && ((cmd.take r.mask.length).zipWith (· &&& ·) r.mask == r.pattern)

/-- A packet is a legal command when it selects a row; "a packet that selects no row is illegal" (R85, R79). -/
def packet (cmd : Packet) : Bool :=
  rows.any (fun r => r.selectedBy cmd)

end Sys2Proof.WellFormed
end

