-- ==== Sys2Proof/Decode.lean ====
section
/-!
DEFINITION. Packet to instruction (spec/30_encoding.md R71 to R79), total on every byte sequence and rejecting by name;
then the encoder, and the two readings of the opcode table's numbers that the host asks for.
-/

namespace Sys2Proof

/-- Why a packet is illegal, in the order of tests of R78 and R220. The block answers all four alike (R216). -/
inductive Illegal where
  /-- the packet has no bytes -/
  | emptyPacket
  /-- `cmd[0]` is not one of the ten opcodes -/
  | unassignedOpcode
  /-- the length is not the one its opcode has -/
  | wrongLength
  /-- `DEC.DECODE` with `kind` above 0x01 -/
  | kindOutOfRange
deriving DecidableEq, Repr

/-- Format Z: no operand byte may follow the opcode (R72, R78). -/
def formatZ (i : Instr) (operands : List Byte) : Except Illegal Instr :=
  match operands with
  | [] => .ok i
  | _ :: _ => .error .wrongLength

/-- Format B: exactly one operand byte (R72, R78). -/
def formatB (i : Byte → Instr) (operands : List Byte) : Except Illegal Instr :=
  match operands with
  | [b] => .ok (i b)
  | _ => .error .wrongLength

/-- The `kind` byte: 0x00 Temperature, 0x01 Humidity, every other value illegal (R77). -/
def kindOfByte (k : Byte) : Option MeasurementKind :=
  if k = 0x00 then some .temperature
  else if k = 0x01 then some .humidity
  else none

/-- Format D: `kind`, `msb`, `lsb`; the length is tested before the kind (R72, R78). -/
def formatD (operands : List Byte) : Except Illegal Instr :=
  match operands with
  | [k, msb, lsb] =>
    match kindOfByte k with
    | some kind => .ok (.decDecode kind msb lsb)
    | none => .error .kindOutOfRange
  | _ => .error .wrongLength

/-- Format F: frame type, 8 destination bytes, and whatever follows is the payload (R72, R77, R78). -/
def formatF (operands : List Byte) : Except Illegal Instr :=
  match operands with
  | ft :: d0 :: d1 :: d2 :: d3 :: d4 :: d5 :: d6 :: d7 :: payload =>
    .ok (.frmBuild ft #v[d0, d1, d2, d3, d4, d5, d6, d7] payload)
  | _ => .error .wrongLength

/-- The decoding procedure of R78, the opcode map being that of R74; the decoder matches all 8 bits of the opcode. -/
def decode (cmd : Packet) : Except Illegal Instr :=
  match cmd with
  | [] => .error .emptyPacket
  | op :: operands =>
    if op = 0x01 then formatZ .sysStatus operands
    else if op = 0x10 then formatZ .crcInit operands
    else if op = 0x11 then formatB .crcUpdate operands
    else if op = 0x12 then formatZ .crcRead operands
    else if op = 0x13 then formatB .crcVerify operands
    else if op = 0x20 then formatD operands
    else if op = 0x30 then formatF operands
    else if op = 0x31 then formatZ .frmLen operands
    else if op = 0x32 then formatZ .frmNext operands
    else if op = 0x33 then formatZ .frmRewind operands
    else .error .unassignedOpcode

/-- The code of a kind (R77). -/
def byteOfKind (kind : MeasurementKind) : Byte :=
  match kind with
  | .temperature => 0x00
  | .humidity => 0x01

/-- The packet of an instruction (R72, R74, R77). -/
def encode (i : Instr) : Packet :=
  match i with
  | .sysStatus => [0x01]
  | .crcInit => [0x10]
  | .crcUpdate b => [0x11, b]
  | .crcRead => [0x12]
  | .crcVerify e => [0x13, e]
  | .decDecode kind msb lsb => [0x20, byteOfKind kind, msb, lsb]
  | .frmBuild ft dst payload => 0x30 :: ft :: (dst.toList ++ payload)
  | .frmLen => [0x31]
  | .frmNext => [0x32]
  | .frmRewind => [0x33]

/-- The `count` low bytes of a number, the least significant first. -/
def lowBytes (count w : Nat) : Packet :=
  match count with
  | 0 => []
  | k + 1 => BitVec.ofNat 8 w :: lowBytes k (w / 256)

/-- The leading bytes of the packet that a number of the opcode table stands for (log 9). A row whose mask has one byte puts
`cmd[0]` in bits 7:0. The one row whose mask has two bytes, `DEC.DECODE`, writes them "in packet order (first byte leftmost)"
(R85): `cmd[0]` in bits 15:8 and `cmd[1]` in bits 7:0. Later bytes count on from bit 16. -/
def tableBytes (nbits w : Nat) : Packet :=
  match lowBytes ((nbits + 7) / 8) w with
  | b0 :: b1 :: rest => if b1 = 0x20 ∧ b0 ≤ 0x01 then b1 :: b0 :: rest else b0 :: b1 :: rest
  | bytes => bytes

/-- The length of the shortest legal packet with this opcode (R74); 1 for an unassigned opcode. -/
def shortestLength (op : Byte) : Nat :=
  if op = 0x11 ∨ op = 0x13 then 2
  else if op = 0x20 then 4
  else if op = 0x30 then 10
  else 1

/-- The whole packet: operand bytes that the table gives no bits are 0x00, up to the shortest legal length (log 9). -/
def tablePacket (nbits w : Nat) : Packet :=
  match tableBytes nbits w with
  | [] => []
  | op :: rest => op :: (rest ++ List.replicate (shortestLength op - 1 - rest.length) 0x00)

/-- The instruction the decoder reads from a number of the opcode table, or none where it is illegal. -/
def decodeTableWord (nbits w : Nat) : Option Instr :=
  match decode (tablePacket nbits w) with
  | .ok i => some i
  | .error _ => none

end Sys2Proof
end

