-- ==== Sys2Proof/Machine/State.lean ====
section
/-!
DEFINITION. The state of the block (spec/10_state.md R20 to R36), the host's moves and the block's responses around it, the
reasons a step can stop, and the state after reset.
-/

namespace Sys2Proof.Machine

/-- The frame buffer's contents (R22, R50): pairs of a frame offset and the byte there, offsets strictly rising. An offset that
is not listed holds no value (R23, log 4). -/
abbrev Memory := List Host.Cell

/-- One move of the host (R8, R250, R252, R261). -/
inductive HostMove where
  /-- one command packet on the command port, any byte sequence at all -/
  | command (cmd : Packet)
  /-- the reset input, applied between two commands (`none`) or while a command is in progress, which is then abandoned
  without a response (R250, log 7) -/
  | reset (abandoned : Option Packet)
deriving DecidableEq, Repr

/-- The state of the block and its two ports. The first six fields are "the whole architectural state of the block" (R20);
the last two are the model's own (log 1, log 2). -/
structure State where
  /-- `crc`, the CRC-8 remainder of the bytes fed since the last `CRC.INIT` or reset (R21) -/
  crc : Byte
  /-- `fbuf[0..22]`, the frame buffer (R22, R23) -/
  fbuf : Memory
  /-- `flen`, the final frame length in bytes, or 0 when no frame is held (R24) -/
  flen : Offset
  /-- `rptr`, the offset of the next byte `FRM.NEXT` returns (R25) -/
  rptr : Offset
  /-- `fvalid`, whether a frame is held (R26) -/
  fvalid : Bool
  /-- `ptl`, the sticky record of a `PayloadTooLarge` (R27) -/
  ptl : Bool
  /-- the moves the host is going to make, the next one first (log 1) -/
  moves : List HostMove
  /-- the response packets emitted so far, the oldest first (log 2) -/
  responses : List Packet
deriving DecidableEq, Repr

/-- What stops a run. Both stops are `FRM.NEXT`'s, in states no run from reset reaches, and both are safe. -/
inductive Fault where
  /-- `FRM.NEXT` would return a cell that no `FRM.BUILD` has written and that therefore holds no value (R23). Safe: the model
  stops where the spec gives the cell no value (log 4). -/
  | cellHoldsNoValue
  /-- `FRM.NEXT` would read an offset from 23 to 31, which does not exist (R51). Safe (log 6). -/
  | noSuchCell
deriving DecidableEq, Repr

/-- Instructions without a meaning: none is left in this model. -/
inductive Refusal where
  /-- raised only by an arm of exec whose instruction is not modelled yet; safe -/
  | notModelled (mnemonic : String)
deriving DecidableEq, Repr

/-- The state after reset (R36): every register at the value R36 gives, no cell of `fbuf` holding a value (R23), no host move
waiting and no response emitted (log 1, log 2). -/
def State.reset : State where
  crc := 0x00
  fbuf := []
  flen := 0
  rptr := 0
  fvalid := false
  ptl := false
  moves := []
  responses := []

end Sys2Proof.Machine
end

