-- ==== Sys2Proof/Machine/Ops.lean ====
section
/-!
DEFINITION. The named operations every meaning is written with: reading and writing `fbuf`, emitting a response, raising an
error (the block's whole exception mechanism, spec/60_exceptions.md R210, R211, R221), and reset (R250). There is no
return-from-error operation: "There is no return-from-trap instruction and nothing to restore" (R223).
-/

namespace Sys2Proof.Machine

/-! ### The frame buffer as memory -/

/-- What an offset that is not listed reads as: no value (R23, log 4). -/
def Memory.unlisted : Option Byte := none

/-- The byte at an offset. -/
def Memory.read (m : Memory) (a : Nat) : Option Byte :=
  match m with
  | [] => Memory.unlisted
  | c :: rest => if c.1 = a then some c.2 else Memory.read rest a

/-- `fbuf[a] <- v`, keeping offsets strictly rising. -/
def Memory.write (m : Memory) (a : Nat) (v : Byte) : Memory :=
  match m with
  | [] => [(a, v)]
  | c :: rest =>
    if a < c.1 then (a, v) :: c :: rest
    else if a = c.1 then (a, v) :: rest
    else c :: Memory.write rest a v

/-- One-byte writes of successive bytes from offset `a` upward: the loop of R166. -/
def Memory.writeAll (m : Memory) (a : Nat) (bytes : List Byte) : Memory :=
  match bytes with
  | [] => m
  | b :: rest => Memory.writeAll (m.write a b) (a + 1) rest

/-- The canonical form: offsets strictly rising, all of them offsets that exist (R50, R51). Every listed cell holds a value, so
no entry equals what an unlisted offset reads as. -/
abbrev Memory.wf (m : Memory) : Prop :=
  (m.map Prod.fst).Pairwise (· < ·) ∧ ∀ a ∈ m.map Prod.fst, a < Config.frameCap

/-- `MemRead(a, 1)` (R12, R50): one byte of `fbuf`; an offset that does not exist and a cell that holds no value stop. -/
def memRead (a : Nat) (s : State) : Except Fault Byte :=
  if a < Config.frameCap then
    match s.fbuf.read a with
    | some b => .ok b
    | none => .error .cellHoldsNoValue
  else .error .noSuchCell

/-! ### Responses and errors -/

/-- The status codes of R75. -/
inductive Status where
  | ok
  | wrongKind
  | payloadTooLarge
  | noFrame
  | endOfFrame
  | illegal
deriving DecidableEq, Repr

/-- The code of a status (R75). -/
def statusCode (st : Status) : Byte :=
  match st with
  | .ok => 0x00
  | .wrongKind => 0x01
  | .payloadTooLarge => 0x02
  | .noFrame => 0x03
  | .endOfFrame => 0x04
  | .illegal => 0xFF

/-- `respond(status, r0, r1, ...)` (R13): emit the response packet `[status, r0, r1, ...]`. -/
def respond (st : Status) (results : List Byte) (s : State) : State :=
  { s with responses := s.responses ++ [statusCode st :: results] }

/-- Complete a command with `OK` and its result bytes (R13, R76). -/
def reply (results : List Byte) (s : State) : Host.Outcome State Fault Refusal :=
  .next (respond .ok results s)

/-- The five errors the block raises (R211). `ChecksumMismatch` and `BusError` are the host's and have no code. -/
inductive BlockError where
  | wrongKind
  | payloadTooLarge
  | noFrame
  | endOfFrame
  | illegal
deriving DecidableEq, Repr

/-- `code_of` (R13, R211). -/
def errorStatus (e : BlockError) : Status :=
  match e with
  | .wrongKind => .wrongKind
  | .payloadTooLarge => .payloadTooLarge
  | .noFrame => .noFrame
  | .endOfFrame => .endOfFrame
  | .illegal => .illegal

/-- No frame is held and every cell is unspecified, that is, holds no value (R23, R166, log 5). -/
def dropFrame (s : State) : State :=
  { s with fvalid := false, flen := 0, rptr := 0, fbuf := [] }

/-- The column "state the block changes" of R211: only `PayloadTooLarge` changes anything. -/
def errorEffect (e : BlockError) (s : State) : State :=
  match e with
  | .payloadTooLarge => dropFrame { s with ptl := true }
  | .wrongKind => s
  | .noFrame => s
  | .endOfFrame => s
  | .illegal => s

/-- `raise <Error>` (R13): the state changes the error has, then a response with its code and no result bytes. The run goes on:
an error is a response, not a stop (R210). -/
def raise (e : BlockError) (s : State) : Host.Outcome State Fault Refusal :=
  .next (respond (errorStatus e) [] (errorEffect e s))

/-! ### Reset -/

/-- Reset (R250): the block's state becomes the reset state of R36, whatever it was. Responses already emitted stay emitted and
the host's further moves stay to come (log 1, log 2). -/
def applyReset (s : State) : State :=
  { State.reset with moves := s.moves, responses := s.responses }

end Sys2Proof.Machine
end

