-- ==== Sys2Proof/Machine/Operands.lean ====
section
/-!
DEFINITION. Operand forms. Every operand is a byte or a byte sequence "taken from the packet as it stands" (spec/30_encoding.md
R77), which the decoder does; what is left are the bit fields of a raw reading (spec/41_decoder.md R130 to R134) and the byte
order of multi-byte results (spec/20_memory.md R54).
-/

namespace Sys2Proof.Machine

/-- `expected_for(kind)` (R132). -/
def expectedFor (kind : MeasurementKind) : Bool :=
  match kind with
  | .temperature => Config.expectTemperature
  | .humidity => Config.expectHumidity

/-- `status = (lsb >> 1) & 1`, that is `lsb[1]` (R131). -/
def statusBit (lsb : Byte) : Bool :=
  lsb.getLsbD 1

/-- `raw16 = (msb << 8) | (lsb & 0xFC)` (R134): `{a, b}` puts `a` in the high bits (R9). -/
def raw16 (msb lsb : Byte) : BitVec 16 :=
  msb ++ (lsb &&& 0xFC)

/-- `raw14 = raw16 >> 2`, the measurement field m13..m0 (R134). -/
def raw14 (msb lsb : Byte) : BitVec 14 :=
  msb ++ lsb.extractLsb 7 2

/-- A 16-bit result, most significant byte first (R54, R76). -/
def bytes16 (v : BitVec 16) : List Byte :=
  [v.extractLsb' 8 8, v.extractLsb' 0 8]

/-- A 32-bit result, most significant byte first (R54, R76). -/
def bytes32 (v : BitVec 32) : List Byte :=
  [v.extractLsb' 24 8, v.extractLsb' 16 8, v.extractLsb' 8 8, v.extractLsb' 0 8]

/-- "`flen` is sent as a byte with bits 7:5 zero" (R76). -/
def offsetByte (v : Offset) : Byte :=
  v.setWidth 8

/-- A truth value as a result byte: 0x01 for true, 0x00 for false (R76, R106). -/
def boolByte (b : Bool) : Byte :=
  if b then 0x01 else 0x00

end Sys2Proof.Machine
end

