-- ==== Sys2Proof/Machine/Crc.lean ====
section
/-!
DEFINITION. The Checksum Engine (spec/40_crc.md): the CRC-8 as a function (R101, R102, R109) and the four commands around the
`crc` register (R103 to R106).
-/

namespace Sys2Proof.Machine

/-- One of the eight steps of R101: test the top bit, shift left dropping it, XOR in the polynomial when it was set. -/
def crcShift (r : Byte) : Byte :=
  if r.getLsbD 7 then (r <<< 1) ^^^ Config.crcPoly else r <<< 1

/-- `count` steps one after another. -/
def crcShifts (count : Nat) (r : Byte) : Byte :=
  match count with
  | 0 => r
  | k + 1 => crcShifts k (crcShift r)

/-- `crc8_update(c, b)` (R101): the data byte enters by exclusive or, then eight steps. -/
def crc8Update (c b : Byte) : Byte :=
  crcShifts 8 (c ^^^ b)

/-- `crc8(data)` (R102): from `CRC_INIT`, every byte in order, no reflection and no final XOR. -/
def crc8 (data : List Byte) : Byte :=
  data.foldl crc8Update Config.crcInit

/-- `verify(data, expected)` (R109): recompute and compare. -/
def verify (data : List Byte) (expected : Byte) : Bool :=
  crc8 data == expected

/-- `CRC.INIT` (R103): `crc <- 0x00`. -/
def execCrcInit (s : State) : Host.Outcome State Fault Refusal :=
  reply [] { s with crc := Config.crcInit }

/-- `CRC.UPDATE b` (R104): `crc <- crc8_update(crc, b)`. -/
def execCrcUpdate (b : Byte) (s : State) : Host.Outcome State Fault Refusal :=
  reply [] { s with crc := crc8Update s.crc b }

/-- `CRC.READ` (R105): returns `crc` and leaves it. -/
def execCrcRead (s : State) : Host.Outcome State Fault Refusal :=
  reply [s.crc] s

/-- `CRC.VERIFY e` (R106): 0x01 when `crc == e`, else 0x00; a mismatch is not an error. -/
def execCrcVerify (e : Byte) (s : State) : Host.Outcome State Fault Refusal :=
  reply [boolByte (s.crc == e)] s

end Sys2Proof.Machine
end

