-- ==== Sys2Proof/Machine/Frame.lean ====
section
/-!
DEFINITION. The Frame Encoder (spec/42_frame.md): the frame as a function of the three operands (R160 to R165) and the four
commands (R166 to R169).
-/

namespace Sys2Proof.Machine

/-- `sum(s) mod 256` (R11, R164): the mathematical sum, reduced once. -/
def byteSum (bytes : List Byte) : Byte :=
  BitVec.ofNat 8 (bytes.map BitVec.toNat).sum

/-- `CHECKSUM = 0xFF - s` (R164). -/
def frameChecksum (body : List Byte) : Byte :=
  0xFF - byteSum body

/-- `LEN = 11 + n` (R162). -/
def lengthField (n : Nat) : Nat :=
  Config.lenOverhead + n

/-- `LEN_HI = (LEN >> 8) & 0xFF`, the corrected form (R163). -/
def lenHi (len : Nat) : Byte :=
  BitVec.ofNat 8 ((len >>> 8) &&& 0xFF)

/-- `LEN_LO = LEN & 0xFF` (R163). -/
def lenLo (len : Nat) : Byte :=
  BitVec.ofNat 8 (len &&& 0xFF)

/-- Offsets 3 to 13 + n: `[ft, 0x00] ++ dst ++ [0x00] ++ payload` (R165). -/
def frameBody (ft : Byte) (dst : Vector Byte 8) (payload : List Byte) : List Byte :=
  [ft, Config.frameId] ++ dst.toList ++ [Config.options] ++ payload

/-- `build_frame(ft, dst, payload)` (R165). -/
def buildFrame (ft : Byte) (dst : Vector Byte 8) (payload : List Byte) : List Byte :=
  let len := lengthField payload.length
  let body := frameBody ft dst payload
  [Config.startDelim, lenHi len, lenLo len] ++ body ++ [frameChecksum body]

/-- Install a frame (R166): its bytes are written one by one from offset 0, all other cells become unspecified, `flen` is its
length, the read-out starts at offset 0 and a frame is held. -/
def holdFrame (frame : List Byte) (s : State) : State :=
  { s with
    fbuf := Memory.writeAll [] 0 frame
    flen := BitVec.ofNat 5 frame.length
    rptr := 0
    fvalid := true }

/-- `FRM.BUILD ft, dst, payload` (R166). The comparison is on the payload's length itself, which has no upper bound (R171). -/
def execFrmBuild (ft : Byte) (dst : Vector Byte 8) (payload : List Byte) (s : State) : Host.Outcome State Fault Refusal :=
  if Config.maxPayload < payload.length then raise .payloadTooLarge s
  else
    let s' := holdFrame (buildFrame ft dst payload) s
    reply [offsetByte s'.flen] s'

/-- `FRM.LEN` (R167): returns `flen`, not the frame's length field. -/
def execFrmLen (s : State) : Host.Outcome State Fault Refusal :=
  if s.fvalid then reply [offsetByte s.flen] s
  else raise .noFrame s

/-- `FRM.NEXT` (R168): returns `fbuf[rptr]` and increments `rptr`; the existence of a frame is tested before the position in it
(R220). -/
def execFrmNext (s : State) : Host.Outcome State Fault Refusal :=
  if s.fvalid then
    if s.rptr = s.flen then raise .endOfFrame s
    else
      match memRead s.rptr.toNat s with
      | .ok b => reply [b] { s with rptr := s.rptr + 1 }
      | .error f => .fault f
  else raise .noFrame s

/-- `FRM.REWIND` (R169): `rptr <- 0`. -/
def execFrmRewind (s : State) : Host.Outcome State Fault Refusal :=
  if s.fvalid then reply [] { s with rptr := 0 }
  else raise .noFrame s

end Sys2Proof.Machine
end

