-- ==== Sys2Proof/Machine/Binary32.lean ====
section
/-!
DEFINITION. IEEE 754 binary32 with round to nearest even (spec/00_scope.md R14, spec/41_decoder.md R136, R137), on 32-bit
patterns. A finite binary32 value is a whole number of units of 2^-149, so every exact result is a quotient of integers and one
function, `f32`, rounds them all. NaN operands and infinite operands do not occur (R142) and are given no meaning here (log 8).
-/

namespace Sys2Proof.Machine

/-- The quotient `p / q` of naturals rounded to the nearest natural, ties to the even one. -/
def roundHalfEven (p q : Nat) : Nat :=
  let down := p / q
  let rest := p % q
  if 2 * rest < q then down
  else if q < 2 * rest then down + 1
  else down + down % 2

/-- Exponent and fraction bits (30:0) of the binary32 value nearest `p / q`, ties to an even significand; the pattern of
infinity where the rounded value is beyond the format. With `u` the whole units of 2^-149 in `p / q`, the last place of the
result is 2^`k` units, `k` being 0 for subnormal values and the lowest normal binade. The significand, hidden bit included, is
added to `k` shifted into the exponent field, so that a significand rounded up to 2^24 carries into the exponent. -/
def roundMagnitude (p q : Nat) : Nat :=
  let u := p * 2 ^ 149 / q
  let k := Nat.log2 u - 23
  let bits := k * 2 ^ 23 + roundHalfEven (p * 2 ^ 149) (q * 2 ^ k)
  if bits < 0x7F800000 then bits else 0x7F800000

/-- `f32(x)` for the rational `x = num / den`, `den > 0`: "the IEEE 754 binary32 value nearest the real number `x`, ties to the
value with an even significand" (R14). An exact zero is +0. -/
def f32 (num : Int) (den : Nat) : F32 :=
  BitVec.ofBool (decide (num < 0)) ++ BitVec.ofNat 31 (roundMagnitude num.natAbs den)

/-- The magnitude of a finite binary32 value in units of 2^-149. -/
def unitsAbs (v : F32) : Nat :=
  let e := (v.extractLsb' 23 8).toNat
  let f := (v.extractLsb' 0 23).toNat
  if e = 0 then f else (2 ^ 23 + f) * 2 ^ (e - 1)

/-- A finite binary32 value in units of 2^-149: the value is `units v * 2^-149` exactly. -/
def units (v : F32) : Int :=
  if v.msb then - (unitsAbs v : Int) else (unitsAbs v : Int)

/-- `a *f b`: the exact product, rounded once (R14). -/
def mulF (a b : F32) : F32 :=
  f32 (units a * units b) (2 ^ 149 * 2 ^ 149)

/-- `a +f b`: the exact sum, rounded once (R14). -/
def addF (a b : F32) : F32 :=
  f32 (units a + units b) (2 ^ 149)

/-- `a / b`: the exact quotient of a value by a positive one, rounded once (R137 divides by `SCALE`, where the quotient is
exact). -/
def divF (a b : F32) : F32 :=
  f32 (units a) (unitsAbs b)

end Sys2Proof.Machine
end

