-- ==== Sys2Proof/Machine/Reading.lean ====
section
/-!
DEFINITION. The Reading Decoder (spec/41_decoder.md): the value of a reading (R136, R137) and the command `DEC.DECODE` (R140).
-/

namespace Sys2Proof.Machine

/-- The multiplier of a kind (R136). -/
def kindMul (kind : MeasurementKind) : F32 :=
  match kind with
  | .temperature => Config.tMul
  | .humidity => Config.hMul

/-- The additive constant of a kind (R136). -/
def kindAdd (kind : MeasurementKind) : F32 :=
  match kind with
  | .temperature => Config.tAdd
  | .humidity => Config.hAdd

/-- `t1 = x / 65536.0` with `x = f32(raw16)` (R137). -/
def scaledReading (raw : BitVec 16) : F32 :=
  divF (f32 raw.toNat 1) Config.scale

/-- `t2 = MUL *f t1` (R137). -/
def scaledProduct (kind : MeasurementKind) (raw : BitVec 16) : F32 :=
  mulF (kindMul kind) (scaledReading raw)

/-- `value(kind, raw16)` (R137): two roundings, never a fused multiply-add, no wider intermediate, no clamping (R139). -/
def physicalValue (kind : MeasurementKind) (raw : BitVec 16) : F32 :=
  addF (kindAdd kind) (scaledProduct kind raw)

/-- `DEC.DECODE kind, msb, lsb` (R140). No state is read or written. -/
def execDecDecode (kind : MeasurementKind) (msb lsb : Byte) (s : State) : Host.Outcome State Fault Refusal :=
  if statusBit lsb = expectedFor kind then
    reply (bytes16 (raw16 msb lsb) ++ bytes32 (physicalValue kind (raw16 msb lsb))) s
  else raise .wrongKind s

end Sys2Proof.Machine
end

