-- ==== Sys2Proof/Machine/Flags.lean ====
section
/-!
DEFINITION. The flags (spec/10_state.md R30, R31). The block has two, `fvalid` and `ptl`; no arithmetic command sets a flag, so
there is no carry, overflow, zero or sign computation. What is left is the `STATUS` register, a view of the two flags.
-/

namespace Sys2Proof.Machine

/-- `STATUS` = `{0b000000, ptl, fvalid}` (R31): bit 0 is `fvalid`, bit 1 is `ptl`, bits 7:2 read as 0. -/
def statusRegister (s : State) : Byte :=
  (0b000000#6) ++ (BitVec.ofBool s.ptl) ++ (BitVec.ofBool s.fvalid)

end Sys2Proof.Machine
end

