-- ==== Sys2Proof/Machine/System.lean ====
section
/-!
DEFINITION. The system command (spec/43_system.md R200). It is the only one (R201).
-/

namespace Sys2Proof.Machine

/-- `SYS.STATUS` (R200): `respond(OK, {0b000000, ptl, fvalid})`. Reading clears nothing. -/
def execSysStatus (s : State) : Host.Outcome State Fault Refusal :=
  reply [statusRegister s] s

end Sys2Proof.Machine
end

