-- ==== Sys2Proof/Machine/Dispatch.lean ====
section
/-!
DEFINITION. One arm per instruction: each is one call of that instruction's meaning.
-/

namespace Sys2Proof.Machine

def exec (i : Instr) (s : State) : Host.Outcome State Fault Refusal :=
  match i with
  | .sysStatus => Sys2Proof.Machine.execSysStatus s
  | .crcInit => Sys2Proof.Machine.execCrcInit s
  | .crcUpdate b => Sys2Proof.Machine.execCrcUpdate b s
  | .crcRead => Sys2Proof.Machine.execCrcRead s
  | .crcVerify e => Sys2Proof.Machine.execCrcVerify e s
  | .decDecode kind msb lsb => Sys2Proof.Machine.execDecDecode kind msb lsb s
  | .frmBuild ft dst payload => Sys2Proof.Machine.execFrmBuild ft dst payload s
  | .frmLen => Sys2Proof.Machine.execFrmLen s
  | .frmNext => Sys2Proof.Machine.execFrmNext s
  | .frmRewind => Sys2Proof.Machine.execFrmRewind s

end Sys2Proof.Machine
end

