-- ==== Sys2Proof/Machine/Port.lean ====
section
/-!
DEFINITION. What the block does with one move of the host (spec/30_encoding.md R70, R78; spec/70_reset_and_hazards.md R250):
serve a command packet, or be reset.
-/

namespace Sys2Proof.Machine

/-- Serve one command packet (R78, R216): decode it and run the instruction; an illegal packet changes nothing and is answered
`[0xFF]`, whatever made it illegal. -/
def serveCommand (cmd : Packet) (s : State) : Host.Outcome State Fault Refusal :=
  match decode cmd with
  | .ok i => exec i s
  | .error _ => raise .illegal s

/-- One host move (R8, R250). A command that a reset abandons leaves no trace: no response, and the state is the reset state
whatever it had done (log 7). -/
def serveMove (move : HostMove) (s : State) : Host.Outcome State Fault Refusal :=
  match move with
  | .command cmd => serveCommand cmd s
  | .reset _ => .next (applyReset s)

/-- With no host move the block is idle and nothing changes (R8, R252, log 3). -/
def idle (s : State) : Host.Outcome State Fault Refusal :=
  .next s

/-- The state whose very next host move is a given command packet. -/
def presentCommand (cmd : Packet) (s : State) : State :=
  { s with moves := .command cmd :: s.moves }

end Sys2Proof.Machine
end

