-- ==== Sys2Proof/Machine/Step.lean ====
section
/-!
DEFINITION. One step: the host's next move with everything it causes (spec/20_memory.md R58, spec/70_reset_and_hazards.md R252),
or an idle step when the host makes none.
-/

namespace Sys2Proof.Machine

/-- One step of the block (log 1, log 3). The block fetches nothing (spec/10_state.md R28): its next instruction is the next
packet on the command port. -/
def step (s : State) : Host.Outcome State Fault Refusal :=
  match s.moves with
  | [] => idle s
  | move :: rest => serveMove move { s with moves := rest }

/-- `s` with the packet of an opcode-table number as the host's very next move, which the next step runs (log 1, log 9). -/
def State.withFetchWord (s : State) (nbits w : Nat) : State :=
  presentCommand (tablePacket nbits w) s

end Sys2Proof.Machine
end

