-- ==== Sys2Proof/Machine/Pseudo.lean ====
section
/-!
DEFINITION. The three pseudo-instructions (spec/30_encoding.md R83): fixed sequences of real commands that the host issues; the
block never sees a pseudo-instruction. They are lists of host moves, used by statements and never by the step.
-/

namespace Sys2Proof.Machine

/-- The host move that issues an instruction. -/
def issue (i : Instr) : HostMove :=
  .command (encode i)

/-- `CRC.INIT`, then `CRC.UPDATE` of every byte in order: what R107 and R108 begin with. -/
def feedBytes (data : List Byte) : List HostMove :=
  issue .crcInit :: data.map (fun b => issue (.crcUpdate b))

/-- `CRC.CHECKSUM data` (R107). -/
def crcChecksum (data : List Byte) : List HostMove :=
  feedBytes data ++ [issue .crcRead]

/-- `CRC.CHECK data, e` (R108). -/
def crcCheck (data : List Byte) (e : Byte) : List HostMove :=
  feedBytes data ++ [issue (.crcVerify e)]

/-- `FRM.DRAIN` (R170), as it unrolls for a frame of `len` bytes: `FRM.REWIND`, then `FRM.NEXT` until the response is
`END_OF_FRAME`, which is the one after the `len` bytes. -/
def frmDrain (len : Nat) : List HostMove :=
  issue .frmRewind :: List.replicate (len + 1) (issue .frmNext)

end Sys2Proof.Machine
end

