-- ==== Sys2Proof/Safety.lean ====
section
/-!
DEFINITION. What counts as a good state and a safe run, and the other vocabulary of the statements: the invariant of
spec/10_state.md R35, the well-formed frame of spec/42_frame.md R172, runs (spec/70_reset_and_hazards.md R252), and the second
forms of the CRC that spec/40_crc.md gives beside R101.
-/

namespace Sys2Proof.Machine

/-! ### Runs -/

/-- `k` steps, stopping at the first stop (R252). -/
def run (k : Nat) (s : State) : Host.Outcome State Fault Refusal :=
  match k with
  | 0 => .next s
  | k + 1 =>
    match step s with
    | .next t => run k t
    | .fault f => .fault f
    | .refused r => .refused r

/-- The state whose next host moves are the given ones. -/
def withMoves (moves : List HostMove) (s : State) : State :=
  { s with moves := moves }

/-- The state after one more response. -/
def answered (packet : Packet) (s : State) : State :=
  { s with responses := s.responses ++ [packet] }

/-- Whether a host move is a command, which the block answers, and not a reset, which it does not (R70, R250). -/
def isCommand (move : HostMove) : Bool :=
  match move with
  | .command _ => true
  | .reset _ => false

/-! ### Frames and the invariant -/

/-- A well-formed frame (R172). -/
abbrev WellFormedFrame (f : List Byte) : Prop :=
  15 ≤ f.length ∧ f.length ≤ 23 ∧ f[0]? = some 0x7E ∧ f[1]? = some 0x00 ∧ f[2]? = some (BitVec.ofNat 8 (f.length - 4)) ∧
  f[4]? = some 0x00 ∧ f[13]? = some 0x00 ∧
  f.getLast? = some (BitVec.ofNat 8 (0xFF - ((f.drop 3).dropLast.map BitVec.toNat).sum % 256))

/-- `fbuf[0..flen-1]`: the bytes the cells below `flen` hold. -/
def heldFrame (s : State) : List Byte :=
  (List.range s.flen.toNat).filterMap s.fbuf.read

/-- The invariant of R35, (I1) to (I3), with the canonical form of memory. (I4) and (I5) are not about one state alone and
stand in the statements. -/
structure Inv (s : State) : Prop where
  /-- (I1) -/
  rptr_le : s.rptr.toNat ≤ s.flen.toNat
  /-- (I1) -/
  flen_le : s.flen.toNat ≤ 23
  /-- (I2) -/
  no_frame : s.fvalid = false → s.flen = 0 ∧ s.rptr = 0
  /-- (I3) -/
  frame : s.fvalid = true → 15 ≤ s.flen.toNat ∧ (heldFrame s).length = s.flen.toNat ∧ WellFormedFrame (heldFrame s)
  /-- `fbuf` is in its canonical form -/
  memory : Memory.wf s.fbuf

/-- Two states that differ at most in cells of `fbuf` the spec leaves unspecified: cells at or above `flen`, and every cell
while no frame is held (R23). -/
def SameButUnspecified (s t : State) : Prop :=
  t = { s with fbuf := t.fbuf } ∧ (s.fvalid = true → ∀ a, a < s.flen.toNat → t.fbuf.read a = s.fbuf.read a)

/-- The six items of the block's architectural state (R20) are equal in two states. -/
def SameBlock (s t : State) : Prop :=
  t.crc = s.crc ∧ t.fbuf = s.fbuf ∧ t.flen = s.flen ∧ t.rptr = s.rptr ∧ t.fvalid = s.fvalid ∧ t.ptl = s.ptl

/-- The items of the Frame Encoder (R20) are equal in two states. -/
def SameFrameUnit (s t : State) : Prop :=
  t.fbuf = s.fbuf ∧ t.flen = s.flen ∧ t.rptr = s.rptr ∧ t.fvalid = s.fvalid ∧ t.ptl = s.ptl

/-! ### Which unit an instruction belongs to (R74, column "unit") -/

/-- The units (R2), and `system` for the one command of none. -/
inductive BlockUnit where
  | system
  | checksum
  | reading
  | frame
deriving DecidableEq, Repr

/-- The unit of an instruction (R74). -/
def unitOf (i : Instr) : BlockUnit :=
  match i with
  | .sysStatus => .system
  | .crcInit => .checksum
  | .crcUpdate _ => .checksum
  | .crcRead => .checksum
  | .crcVerify _ => .checksum
  | .decDecode _ _ _ => .reading
  | .frmBuild _ _ _ => .frame
  | .frmLen => .frame
  | .frmNext => .frame
  | .frmRewind => .frame

/-- The data byte an instruction feeds to the checksum. -/
def fedByte (i : Instr) : Option Byte :=
  match i with
  | .crcUpdate b => some b
  | _ => none

/-! ### Second forms of the CRC -/

/-- The bit-serial form of R101: the tested bit of step `i` is `r[7] ^ b[7 - i]`, and `b` is not xored in beforehand. -/
def bitSerialUpdate (c b : Byte) : Byte :=
  (List.range 8).foldl
    (fun r i => if (r.getLsbD 7 ^^ b.getLsbD (7 - i)) = true then (r <<< 1) ^^^ 0x31 else r <<< 1) c

/-- The bits of a byte, the most significant first. -/
def bitsOf (b : Byte) : List Bool :=
  (List.range 8).map (fun i => b.getLsbD (7 - i))

/-- One step of long division by x^8 + x^5 + x^4 + 1 over GF(2): the next coefficient enters at the low end, and the divisor is
subtracted (exclusive or) when the coefficient of x^8 that leaves is 1 (R100, R112). -/
def divisionStep (r : Byte) (bit : Bool) : Byte :=
  let next := (r <<< 1) ||| (if bit then 0x01 else 0x00)
  if r.getLsbD 7 then next ^^^ 0x31 else next

/-- The remainder of the polynomial whose coefficients are the bits of `data`, divided by x^8 + x^5 + x^4 + 1. -/
def polynomialRemainder (data : List Byte) : Byte :=
  (data.flatMap bitsOf).foldl divisionStep 0x00

/-- The table of R111, row by row. -/
def crcTable : List Byte :=
  [0x00, 0x31, 0x62, 0x53, 0xC4, 0xF5, 0xA6, 0x97, 0xB9, 0x88, 0xDB, 0xEA, 0x7D, 0x4C, 0x1F, 0x2E] ++
  [0x43, 0x72, 0x21, 0x10, 0x87, 0xB6, 0xE5, 0xD4, 0xFA, 0xCB, 0x98, 0xA9, 0x3E, 0x0F, 0x5C, 0x6D] ++
  [0x86, 0xB7, 0xE4, 0xD5, 0x42, 0x73, 0x20, 0x11, 0x3F, 0x0E, 0x5D, 0x6C, 0xFB, 0xCA, 0x99, 0xA8] ++
  [0xC5, 0xF4, 0xA7, 0x96, 0x01, 0x30, 0x63, 0x52, 0x7C, 0x4D, 0x1E, 0x2F, 0xB8, 0x89, 0xDA, 0xEB] ++
  [0x3D, 0x0C, 0x5F, 0x6E, 0xF9, 0xC8, 0x9B, 0xAA, 0x84, 0xB5, 0xE6, 0xD7, 0x40, 0x71, 0x22, 0x13] ++
  [0x7E, 0x4F, 0x1C, 0x2D, 0xBA, 0x8B, 0xD8, 0xE9, 0xC7, 0xF6, 0xA5, 0x94, 0x03, 0x32, 0x61, 0x50] ++
  [0xBB, 0x8A, 0xD9, 0xE8, 0x7F, 0x4E, 0x1D, 0x2C, 0x02, 0x33, 0x60, 0x51, 0xC6, 0xF7, 0xA4, 0x95] ++
  [0xF8, 0xC9, 0x9A, 0xAB, 0x3C, 0x0D, 0x5E, 0x6F, 0x41, 0x70, 0x23, 0x12, 0x85, 0xB4, 0xE7, 0xD6] ++
  [0x7A, 0x4B, 0x18, 0x29, 0xBE, 0x8F, 0xDC, 0xED, 0xC3, 0xF2, 0xA1, 0x90, 0x07, 0x36, 0x65, 0x54] ++
  [0x39, 0x08, 0x5B, 0x6A, 0xFD, 0xCC, 0x9F, 0xAE, 0x80, 0xB1, 0xE2, 0xD3, 0x44, 0x75, 0x26, 0x17] ++
  [0xFC, 0xCD, 0x9E, 0xAF, 0x38, 0x09, 0x5A, 0x6B, 0x45, 0x74, 0x27, 0x16, 0x81, 0xB0, 0xE3, 0xD2] ++
  [0xBF, 0x8E, 0xDD, 0xEC, 0x7B, 0x4A, 0x19, 0x28, 0x06, 0x37, 0x64, 0x55, 0xC2, 0xF3, 0xA0, 0x91] ++
  [0x47, 0x76, 0x25, 0x14, 0x83, 0xB2, 0xE1, 0xD0, 0xFE, 0xCF, 0x9C, 0xAD, 0x3A, 0x0B, 0x58, 0x69] ++
  [0x04, 0x35, 0x66, 0x57, 0xC0, 0xF1, 0xA2, 0x93, 0xBD, 0x8C, 0xDF, 0xEE, 0x79, 0x48, 0x1B, 0x2A] ++
  [0xC1, 0xF0, 0xA3, 0x92, 0x05, 0x34, 0x67, 0x56, 0x78, 0x49, 0x1A, 0x2B, 0xBC, 0x8D, 0xDE, 0xEF] ++
  [0x82, 0xB3, 0xE0, 0xD1, 0x46, 0x77, 0x24, 0x15, 0x3B, 0x0A, 0x59, 0x68, 0xFF, 0xCE, 0x9D, 0xAC]

/-! ### Illegal packets, spelled out -/

/-- A packet is illegal in the words of R79: empty; or an unassigned opcode; or not the length of its opcode; or `DEC.DECODE`
with `kind` above 0x01. -/
abbrev IllegalPacket (cmd : Packet) : Prop :=
  cmd = [] ∨
  (∀ op ∈ cmd.head?, op ∉ ([0x01, 0x10, 0x11, 0x12, 0x13, 0x20, 0x30, 0x31, 0x32, 0x33] : List Byte)) ∨
  (∃ op ∈ cmd.head?, op ∈ ([0x01, 0x10, 0x12, 0x31, 0x32, 0x33] : List Byte) ∧ cmd.length ≠ 1) ∨
  (∃ op ∈ cmd.head?, op ∈ ([0x11, 0x13] : List Byte) ∧ cmd.length ≠ 2) ∨
  (cmd.head? = some 0x20 ∧ (cmd.length ≠ 4 ∨ ∃ k ∈ cmd[1]?, 0x01 < k)) ∨
  (cmd.head? = some 0x30 ∧ cmd.length < 10)

/-! ### The two readings of a binary32 pattern the statements use -/

/-- A finite binary32 pattern: exponent field below 255 (R14). -/
def FiniteF32 (v : F32) : Prop :=
  (v.extractLsb' 23 8).toNat < 255

/-- A finite, normal, non-zero binary32 pattern: exponent field 1 to 254 (R142). -/
def NormalF32 (v : F32) : Prop :=
  1 ≤ (v.extractLsb' 23 8).toNat ∧ (v.extractLsb' 23 8).toNat ≤ 254

end Sys2Proof.Machine
end

