-- ==== Sys2Proof/Certificates/Slice0/Obligations.lean ====
section
/-!
DEFINITION. The statements for the provers, from the numbered rules of spec/. `answered p s` is `s` with one more response `p`
and nothing else changed (Safety.lean), so that a conclusion of the form `exec i s = .next (answered p { s with … })` says the
response, every field that changes and, by the record update, that every other field is unchanged.
-/

open Sys2Proof Sys2Proof.Machine

/-! ### Encoding -/

/-- R72, R74, R77: eleven packets written out byte by byte from the opcode map, and the instructions they stand for. -/
def Obligations.WrittenPacketsDecode : Prop :=
  decode [0b00000001] = .ok .sysStatus ∧
  decode [0b00010000] = .ok .crcInit ∧
  decode [0b00010001, 0b01101000] = .ok (.crcUpdate 0x68) ∧
  decode [0b00010010] = .ok .crcRead ∧
  decode [0b00010011, 0b01111100] = .ok (.crcVerify 0x7C) ∧
  decode [0b00100000, 0b00000000, 0b01001110, 0b10000101] = .ok (.decDecode .temperature 0x4E 0x85) ∧
  decode [0b00100000, 0b00000001, 0b01101000, 0b00111010] = .ok (.decDecode .humidity 0x68 0x3A) ∧
  decode [0x30, 0x00, 0x00, 0x13, 0xA2, 0x00, 0x40, 0x64, 0x03, 0x75, 0x4E, 0x85] =
    .ok (.frmBuild 0x00 #v[0x00, 0x13, 0xA2, 0x00, 0x40, 0x64, 0x03, 0x75] [0x4E, 0x85]) ∧
  decode [0b00110001] = .ok .frmLen ∧
  decode [0b00110010] = .ok .frmNext ∧
  decode [0b00110011] = .ok .frmRewind

/-- R71 to R78, R81: decoding and encoding agree in both directions, for every instruction, every operand value and every
packet: a packet decodes to an instruction exactly when it is that instruction's packet. -/
def Obligations.DecodeInvertsEncode : Prop :=
  ∀ (cmd : Packet) (i : Instr), decode cmd = .ok i ↔ cmd = encode i

/-- R85, R79: the decoder accepts exactly the packets that select a row of the opcode table, and no packet selects two. -/
def Obligations.DecoderAcceptsWhatTheTableSelects : Prop :=
  ∀ cmd : Packet,
    ((∃ i, decode cmd = .ok i) ↔ WellFormed.packet cmd = true) ∧
    (WellFormed.rows.filter (fun r => r.selectedBy cmd)).length ≤ 1

/-- R79, R216: the illegal packets are those R79 lists; an illegal packet changes no state and is answered `[0xFF]`; every other
packet is an instruction. 0x00 is not an opcode. -/
def Obligations.IllegalPacketsChangeNothing : Prop :=
  (∀ (s : State) (cmd : Packet) (rest : List HostMove), IllegalPacket cmd → s.moves = .command cmd :: rest →
    step s = .next (answered [0xFF] { s with moves := rest })) ∧
  (∀ cmd : Packet, ¬ IllegalPacket cmd → ∃ i, decode cmd = .ok i) ∧
  (∀ operands : List Byte, IllegalPacket (0x00 :: operands))

/-- R220: the first condition in the order of the rule is the one reported: empty, then opcode, then length, then the range of
`kind`, all before any error of an instruction; then no frame, before the end of the frame. -/
def Obligations.ErrorPriority : Prop :=
  decode [] = .error .emptyPacket ∧
  (∀ (op : Byte) (operands : List Byte),
    op ∉ ([0x01, 0x10, 0x11, 0x12, 0x13, 0x20, 0x30, 0x31, 0x32, 0x33] : List Byte) →
    decode (op :: operands) = .error .unassignedOpcode) ∧
  (∀ operands : List Byte, operands.length ≠ 3 → decode (0x20 :: operands) = .error .wrongLength) ∧
  (∀ k msb lsb : Byte, 0x01 < k → decode [0x20, k, msb, lsb] = .error .kindOutOfRange) ∧
  (∀ operands : List Byte, operands.length < 9 → decode (0x30 :: operands) = .error .wrongLength) ∧
  (∀ (s : State) (operands : List Byte) (rest : List HostMove), operands.length = 18 →
    s.moves = .command (0x30 :: operands) :: rest → ∃ t, step s = .next t ∧ t.responses = s.responses ++ [[0x02]]) ∧
  (∀ s : State, s.fvalid = false → s.rptr = s.flen → exec .frmNext s = .next (answered [0x03] s))

/-! ### The step, the host and reset -/

/-- R58, R78: when the packet the host presents decodes to an instruction, the step is that instruction's effect, with the move
taken off the host's list and nothing else around it. -/
def Obligations.StepRunsTheDecodedInstruction : Prop :=
  ∀ (s : State) (cmd : Packet) (rest : List HostMove) (i : Instr),
    s.moves = .command cmd :: rest → decode cmd = .ok i → step s = exec i { s with moves := rest }

/-- R8, R252, and the model's choice of log 3: with no move of the host, a step changes nothing. -/
def Obligations.IdleStepChangesNothing : Prop :=
  ∀ s : State, s.moves = [] → step s = .next s

/-- R250: reset, applied between commands or during one, gives the reset values whatever the state was, and emits no response;
that earlier responses stay emitted is log 2. The cells of `fbuf` are not mentioned: they are unspecified. -/
def Obligations.ResetGivesTheResetValues : Prop :=
  ∀ (s : State) (abandoned : Option Packet) (rest : List HostMove), s.moves = .reset abandoned :: rest →
    ∃ t, step s = .next t ∧ t.crc = 0x00 ∧ t.flen = 0 ∧ t.rptr = 0 ∧ t.fvalid = false ∧ t.ptl = false ∧
      t.moves = rest ∧ t.responses = s.responses

/-- R36: the reset state. -/
def Obligations.ResetValues : Prop :=
  State.reset.crc = 0x00 ∧ State.reset.flen = 0 ∧ State.reset.rptr = 0 ∧ State.reset.fvalid = false ∧
  State.reset.ptl = false ∧ exec .sysStatus State.reset = .next (answered [0x00, 0x00] State.reset)

/-- R251: after reset every command has a defined result: each answers, and the ones the rule names answer as it says. -/
def Obligations.EveryCommandIsDefinedAfterReset : Prop :=
  (∀ i : Instr, ∃ t, exec i State.reset = .next t) ∧
  exec .sysStatus State.reset = .next (answered [0x00, 0x00] State.reset) ∧
  exec .crcRead State.reset = .next (answered [0x00, 0x00] State.reset) ∧
  (∀ i ∈ [Instr.frmLen, .frmNext, .frmRewind], exec i State.reset = .next (answered [0x03] State.reset)) ∧
  (∀ data : List Byte, ∃ t,
    run data.length (withMoves (data.map (fun b => issue (.crcUpdate b))) State.reset) = .next t ∧ t.crc = crc8 data)

/-- R70, R75: a command is answered by exactly one response packet; its status is one of the six; a status other than `OK` has no
result bytes. -/
def Obligations.OneResponsePerCommand : Prop :=
  ∀ (s t : State) (cmd : Packet) (rest : List HostMove), s.moves = .command cmd :: rest → step s = .next t →
    ∃ (status : Byte) (results : List Byte), t.responses = s.responses ++ [status :: results] ∧
      status ∈ ([0x00, 0x01, 0x02, 0x03, 0x04, 0xFF] : List Byte) ∧ (status ≠ 0x00 → results = []) ∧ t.moves = rest

/-- R211, R221: an error changes exactly what R211 lists. A command answered by a status other than `OK` and 0x02 leaves all six
items of the block as they were; one answered by 0x02 leaves `crc`, sets `ptl`, clears `fvalid`, `flen` and `rptr`. -/
def Obligations.ErrorsChangeOnlyWhatIsListed : Prop :=
  ∀ (s t : State) (cmd : Packet) (rest : List HostMove) (status : Byte) (results : List Byte),
    s.moves = .command cmd :: rest → step s = .next t → t.responses = s.responses ++ [status :: results] →
    (status ≠ 0x00 → status ≠ 0x02 → SameBlock s t) ∧
    (status = 0x02 → t.crc = s.crc ∧ t.ptl = true ∧ t.fvalid = false ∧ t.flen = 0 ∧ t.rptr = 0)

/-! ### Invariants of every step -/

/-- R35: the invariant holds after reset. -/
def Obligations.ResetSatisfiesTheInvariant : Prop :=
  Inv State.reset

/-- R35: the invariant holds after reset and after every command, from every state in which it holds, (I1) to (I5): (I4) bits
7:2 of `STATUS` read as 0, and (I5) `ptl` stays 1 unless the step was a reset. -/
def Obligations.EveryStepKeepsTheInvariant : Prop :=
  (∀ s t : State, Inv s → step s = .next t →
    Inv t ∧ (∀ k, 2 ≤ k → (statusRegister t).getLsbD k = false) ∧
    (s.ptl = true → t.ptl = true ∨ ∃ abandoned rest, s.moves = .reset abandoned :: rest)) ∧
  Inv State.reset ∧ (∀ k, 2 ≤ k → (statusRegister State.reset).getLsbD k = false)

/-- R51, R252, R260: from a state that meets the invariant a step never stops: no read of `fbuf` misses, and every command
completes. -/
def Obligations.InvariantStatesNeverStop : Prop :=
  ∀ s : State, Inv s → ∃ t, step s = .next t

/-- R61, R252, R260: a run of any finite sequence of host moves, resets among them, from the reset state completes, takes every
move, and ends in a state that meets the invariant and in which as many responses stand as there were commands. That responses
emitted before a reset still count after it is the model's choice of log 2 (DESIGN CHOICE), not the spec's. -/
def Obligations.EveryRunCompletes : Prop :=
  ∀ moves : List HostMove, ∃ t, run moves.length (withMoves moves State.reset) = .next t ∧ Inv t ∧ t.moves = [] ∧
    t.responses.length = (moves.filter isCommand).length

/-- R12, R51, and log 4 and log 6: the only stops of any instruction are `FRM.NEXT`'s, on a held frame whose next cell does not
exist or holds no value. -/
def Obligations.OnlyFrmNextCanStop : Prop :=
  ∀ (i : Instr) (s : State),
    (∀ r, exec i s ≠ .refused r) ∧
    (∀ f, exec i s = .fault f ↔ i = .frmNext ∧ s.fvalid = true ∧ s.rptr ≠ s.flen ∧
      ((f = .noSuchCell ∧ 23 ≤ s.rptr.toNat) ∨
       (f = .cellHoldsNoValue ∧ s.rptr.toNat < 23 ∧ s.fbuf.read s.rptr.toNat = none)))

/-- R27: `ptl` is set by a failed build and by nothing else, and no command clears it. -/
def Obligations.PtlIsSticky : Prop :=
  ∀ (i : Instr) (s t : State), exec i s = .next t →
    (t.ptl = true ↔ s.ptl = true ∨ ∃ ft dst payload, i = .frmBuild ft dst payload ∧ 8 < payload.length)

/-! ### Which instruction touches what -/

/-- R22, R50: no instruction but `FRM.BUILD` changes any byte of `fbuf`. -/
def Obligations.OnlyBuildWritesTheBuffer : Prop :=
  ∀ (i : Instr) (s t : State), exec i s = .next t → (∀ ft dst payload, i ≠ .frmBuild ft dst payload) →
    ∀ a, t.fbuf.read a = s.fbuf.read a

/-- R2, R29: no unit writes the state of another: commands of the Checksum Engine leave the Frame Encoder's items, commands of
the Frame Encoder leave `crc`, and `DEC.DECODE` and `SYS.STATUS` leave both. -/
def Obligations.UnitsWriteOnlyTheirOwnState : Prop :=
  ∀ (i : Instr) (s t : State), exec i s = .next t →
    (unitOf i ≠ .frame → SameFrameUnit s t) ∧ (unitOf i ≠ .checksum → t.crc = s.crc)

/-- R2, R33: no unit reads the state of another: a Checksum Engine command does the same to `crc` and answers alike in two
states with the same `crc`; a Frame Encoder command or `SYS.STATUS` does the same to the Frame Encoder's items and answers alike
in two states that share those; `DEC.DECODE` answers alike in any two states. -/
def Obligations.UnitsReadOnlyTheirOwnState : Prop :=
  ∀ (i : Instr) (s s' t : State), exec i s = .next t → s'.responses = s.responses →
    (unitOf i = .checksum → s'.crc = s.crc → ∃ t', exec i s' = .next t' ∧ t'.crc = t.crc ∧ t'.responses = t.responses) ∧
    (unitOf i = .frame ∨ unitOf i = .system → SameFrameUnit s s' →
      ∃ t', exec i s' = .next t' ∧ SameFrameUnit t t' ∧ t'.responses = t.responses) ∧
    (unitOf i = .reading → ∃ t', exec i s' = .next t' ∧ t'.responses = t.responses)

/-- R23: the cells the spec leaves unspecified cannot be observed: two states that differ in nothing else are answered alike by
every step, and differ in nothing else afterwards. -/
def Obligations.UnspecifiedCellsAreUnobservable : Prop :=
  ∀ s s' t : State, Inv s → Inv s' → SameButUnspecified s s' → step s = .next t →
    ∃ t', step s' = .next t' ∧ t'.responses = t.responses ∧ SameButUnspecified t t'

/-- R57: `CRC.READ`, `CRC.VERIFY`, `FRM.LEN`, `SYS.STATUS` and `DEC.DECODE` are idempotent: they change no state, and done twice
they give the same response twice. -/
def Obligations.ReadingCommandsAreIdempotent : Prop :=
  ∀ (i : Instr) (s : State),
    (i ∈ [Instr.crcRead, .frmLen, .sysStatus] ∨ (∃ e, i = .crcVerify e) ∨ (∃ kind msb lsb, i = .decDecode kind msb lsb)) →
    ∃ packet, exec i s = .next (answered packet s) ∧ exec i (answered packet s) = .next (answered packet (answered packet s))

/-! ### SYS.STATUS -/

/-- R200: the packet is `[0x01]`; the response is `OK` and a byte whose bit 0 is `fvalid`, bit 1 `ptl`, bits 7:2 zero; no state
changes. -/
def Obligations.SysStatusReturnsTheFlags : Prop :=
  ∀ s : State, ∃ status : Byte, exec .sysStatus s = .next (answered [0x00, status] s) ∧
    status.getLsbD 0 = s.fvalid ∧ status.getLsbD 1 = s.ptl ∧ (∀ k, 2 ≤ k → status.getLsbD k = false) ∧
    encode .sysStatus = [0x01]

/-! ### The Checksum Engine -/

/-- R103: `CRC.INIT`, packet `[0x10]`, sets `crc` to 0x00 and touches nothing else. -/
def Obligations.CrcInitClearsCrc : Prop :=
  encode .crcInit = [0x10] ∧ ∀ s : State, exec .crcInit s = .next (answered [0x00] { s with crc := 0x00 })

/-- R101, R104: `CRC.UPDATE b`, packet `[0x11, b]`, replaces `crc` by the eight-step update of `crc ^ b`, written out; nothing
else changes. With `b` equal to `crc` the result is 0x00, and so it is when both are 0x00. -/
def Obligations.CrcUpdateFeedsOneByte : Prop :=
  (∀ (b : Byte) (s : State),
    let updated : Byte := (List.range 8).foldl
      (fun r _ => if r.getLsbD 7 = true then (r <<< 1) ^^^ 0x31 else r <<< 1) (s.crc ^^^ b)
    exec (.crcUpdate b) s = .next (answered [0x00] { s with crc := updated })) ∧
  (∀ (b : Byte) (s : State), s.crc = b → exec (.crcUpdate b) s = .next (answered [0x00] { s with crc := 0x00 })) ∧
  (∀ b : Byte, encode (.crcUpdate b) = [0x11, b])

/-- R105: `CRC.READ`, packet `[0x12]`, answers `crc` and changes nothing. -/
def Obligations.CrcReadReturnsCrc : Prop :=
  encode .crcRead = [0x12] ∧ ∀ s : State, exec .crcRead s = .next (answered [0x00, s.crc] s)

/-- R106: `CRC.VERIFY e`, packet `[0x13, e]`, answers 0x01 when `crc` equals `e`, else 0x00, with status `OK` both times, and changes nothing. -/
def Obligations.CrcVerifyCompares : Prop :=
  ∀ (e : Byte) (s : State),
    (s.crc = e → exec (.crcVerify e) s = .next (answered [0x00, 0x01] s)) ∧
    (s.crc ≠ e → exec (.crcVerify e) s = .next (answered [0x00, 0x00] s)) ∧
    encode (.crcVerify e) = [0x13, e]

/-- R101: the bit-serial form, in which the data byte is not xored in beforehand, gives the same result for every `c` and `b`. -/
def Obligations.UpdateEqualsBitSerialForm : Prop :=
  ∀ c b : Byte, crc8Update c b = bitSerialUpdate c b

/-- R111, R110 (L4): the update is the table entry at `c ^ b`, for all 65536 pairs. -/
def Obligations.UpdateEqualsTable : Prop :=
  crcTable.length = 256 ∧ ∀ c b : Byte, crcTable[(c ^^^ b).toNat]? = some (crc8Update c b)

/-- R100, R112: the checksum of a sequence is the remainder of its polynomial times x^8, divided over GF(2) by
x^8 + x^5 + x^4 + 1. -/
def Obligations.ChecksumIsPolynomialRemainder : Prop :=
  ∀ data : List Byte, crc8 data = polynomialRemainder (data ++ [0x00])

/-- R110 (L1): linearity over sequences of the same length. -/
def Obligations.ChecksumIsLinear : Prop :=
  ∀ a b : List Byte, a.length = b.length → crc8 (List.zipWith (· ^^^ ·) a b) = crc8 a ^^^ crc8 b

/-- R110 (L2, L3): appending the checksum gives 0x00; leading zero bytes do not change a checksum, and an all-zero sequence has
checksum 0x00. -/
def Obligations.ChecksumResidueAndLeadingZeros : Prop :=
  (∀ data : List Byte, crc8 (data ++ [crc8 data]) = 0x00) ∧
  (∀ (n : Nat) (data : List Byte), crc8 (List.replicate n 0x00 ++ data) = crc8 data) ∧
  (∀ n : Nat, crc8 (List.replicate n 0x00) = 0x00)

/-- R110 (L5): the update is a permutation in each argument, and two sequences of the same length that differ in exactly one byte
never share a checksum. -/
def Obligations.OneChangedByteIsDetected : Prop :=
  (∀ c : Byte, Function.Bijective (fun b => crc8Update c b)) ∧
  (∀ b : Byte, Function.Bijective (fun c => crc8Update c b)) ∧
  (∀ (before after : List Byte) (x y : Byte), x ≠ y → crc8 (before ++ x :: after) ≠ crc8 (before ++ y :: after))

/-- R107: `CRC.CHECKSUM data`, issued from any state, completes; the result byte of its final `CRC.READ` is `crc8 data`, `crc` is
`crc8 data` afterwards, and nothing else changes. -/
def Obligations.ChecksumSequenceComputesCrc8 : Prop :=
  ∀ (data : List Byte) (s : State) (rest : List HostMove), s.moves = crcChecksum data ++ rest →
    run (data.length + 2) s = .next
      { s with
        crc := crc8 data
        moves := rest
        responses := s.responses ++ List.replicate (data.length + 1) [0x00] ++ [[0x00, crc8 data]] }

/-- R108, R109: `CRC.CHECK data, e`, issued from any state, completes, and the result byte of its final `CRC.VERIFY` is 0x01
exactly when `e` is the checksum of `data`. -/
def Obligations.CheckSequenceVerifies : Prop :=
  ∀ (data : List Byte) (e : Byte) (s : State) (rest : List HostMove), s.moves = crcCheck data e ++ rest →
    run (data.length + 2) s = .next
      { s with
        crc := crc8 data
        moves := rest
        responses := s.responses ++ List.replicate (data.length + 1) [0x00] ++
          [[0x00, if e = crc8 data then 0x01 else 0x00]] }

/-- R107: "Commands of other units may be interleaved freely". After `CRC.INIT`, any run of packets, legal or not, in which no
further `CRC.INIT` occurs leaves in `crc` the checksum of the bytes its `CRC.UPDATE` commands fed, in order. -/
def Obligations.InterleavedCommandsDoNotDisturbChecksum : Prop :=
  ∀ (s t : State) (cmds : List Packet) (rest : List HostMove),
    s.moves = issue .crcInit :: cmds.map HostMove.command ++ rest → [0x10] ∉ cmds →
    run (cmds.length + 1) s = .next t →
    t.crc = crc8 (cmds.filterMap (fun cmd => (decode cmd).toOption.bind fedByte))

/-! ### The Reading Decoder -/

/-- R130, R134: `raw16` is the two bytes with bits 1:0 masked off, `raw16 = 4 * raw14`, and bit i + 2 of `raw16` is measurement
bit m_i. -/
def Obligations.RawReadingLayout : Prop :=
  ∀ msb lsb : Byte,
    (raw16 msb lsb).toNat = 256 * msb.toNat + (lsb.toNat - lsb.toNat % 4) ∧
    (raw16 msb lsb).toNat = 4 * (raw14 msb lsb).toNat ∧
    (∀ i, i < 6 → (raw14 msb lsb).getLsbD i = lsb.getLsbD (i + 2)) ∧
    (∀ i, i < 8 → (raw14 msb lsb).getLsbD (i + 6) = msb.getLsbD i)

/-- R140, R132: when the status bit `lsb[1]` is the one the kind expects (0 for Temperature, 1 for Humidity), `DEC.DECODE` answers
`OK`, `raw16` and the binary32 value, high bytes first, and changes nothing. -/
def Obligations.DecodeReturnsRawAndValue : Prop :=
  ∀ (kind : MeasurementKind) (msb lsb : Byte) (s : State),
    lsb.getLsbD 1 = (match kind with | .temperature => false | .humidity => true) →
    ∃ w3 w2 w1 w0 : Byte,
      exec (.decDecode kind msb lsb) s = .next (answered [0x00, msb, lsb &&& 0xFC, w3, w2, w1, w0] s) ∧
      w3 ++ w2 ++ w1 ++ w0 = physicalValue kind (raw16 msb lsb)

/-- R133, R212: `DEC.DECODE` answers `[0x01]` and changes nothing when the status bit is not the kind's, and only then: otherwise it
answers `OK`. For each pair of bytes exactly one kind passes. -/
def Obligations.DecodeRejectsTheWrongKind : Prop :=
  (∀ (kind : MeasurementKind) (msb lsb : Byte) (s : State),
    lsb.getLsbD 1 ≠ (match kind with | .temperature => false | .humidity => true) →
    exec (.decDecode kind msb lsb) s = .next (answered [0x01] s)) ∧
  (∀ (kind : MeasurementKind) (msb lsb : Byte) (s : State),
    lsb.getLsbD 1 = (match kind with | .temperature => false | .humidity => true) →
    ∃ results, exec (.decDecode kind msb lsb) s = .next (answered (0x00 :: results) s)) ∧
  (∀ (msb lsb : Byte) (s : State),
    (exec (.decDecode .temperature msb lsb) s = .next (answered [0x01] s)) ↔
    ¬ (exec (.decDecode .humidity msb lsb) s = .next (answered [0x01] s)))

/-- R131: bit 0 of `lsb` is ignored: the two readings that differ in it decode alike. -/
def Obligations.ReservedBitIsIgnored : Prop :=
  ∀ (kind : MeasurementKind) (msb lsb : Byte) (s : State),
    exec (.decDecode kind msb (lsb ^^^ 0x01)) s = exec (.decDecode kind msb lsb) s

/-- R141: a 14-bit value laid out with the kind's status bit, and either bit 0, decodes to `raw16` = four times it and to the value
at that `raw16`. -/
def Obligations.ReadingRoundTrip : Prop :=
  ∀ (v : BitVec 14) (kind : MeasurementKind) (r : Bool) (s : State),
    let msb : Byte := v.extractLsb' 6 8
    let lsb : Byte := v.extractLsb' 0 6 ++ BitVec.ofBool (match kind with | .temperature => false | .humidity => true) ++
      BitVec.ofBool r
    (raw16 msb lsb).toNat = 4 * v.toNat ∧
    exec (.decDecode kind msb lsb) s = .next (answered
      (0x00 :: (bytes16 (v ++ 0b00#2) ++ bytes32 (physicalValue kind (v ++ 0b00#2)))) s)

/-- R136: the five constants are the binary32 values nearest the source's decimals, with the exact values the rule lists (a value
is `units v` times 2^-149). -/
def Obligations.ConstantsAreTheSourcesDecimals : Prop :=
  Config.tMul = f32 17572 100 ∧ units Config.tMul * 32768 = 5757993 * 2 ^ 149 ∧
  Config.tAdd = f32 (-4685) 100 ∧ units Config.tAdd * 131072 = -6140723 * 2 ^ 149 ∧
  Config.hMul = f32 1250 10 ∧ units Config.hMul = 125 * 2 ^ 149 ∧
  Config.hAdd = f32 (-60) 10 ∧ units Config.hAdd = -6 * 2 ^ 149 ∧
  Config.scale = f32 655360 10 ∧ units Config.scale = 2 ^ 16 * 2 ^ 149 ∧
  Config.tMul = 0x432FB852 ∧ Config.tAdd = 0xC23B6666 ∧ Config.hMul = 0x42FA0000 ∧ Config.hAdd = 0xC0C00000 ∧
  Config.scale = 0x47800000

/-- R14: `f32` rounds to the nearest binary32 value, ties to an even significand, wherever the result is finite: no finite value
is nearer, and one as near as the result is the same value or the result's last bit is 0; the sign is that of the number; the
product and the sum are the exact results rounded once. Two things are the model's, log 8 (PRESUMED), not the spec's: an exact zero
has the pattern of +0 (the sign clause where `num` is 0), and patterns with exponent field 255, which no reading produces (R142),
are read by the product and the sum as if they were finite. -/
def Obligations.F32IsNearestEven : Prop :=
  (∀ (num : Int) (den : Nat), 0 < den → FiniteF32 (f32 num den) →
    ((f32 num den).msb = decide (num < 0)) ∧
    ∀ v : F32, FiniteF32 v →
      |units (f32 num den) * den - num * 2 ^ 149| ≤ |units v * den - num * 2 ^ 149| ∧
      (|units (f32 num den) * den - num * 2 ^ 149| = |units v * den - num * 2 ^ 149| →
        units v = units (f32 num den) ∨ (f32 num den).getLsbD 0 = false)) ∧
  (∀ a b : F32, mulF a b = f32 (units a * units b) (2 ^ 149 * 2 ^ 149) ∧ addF a b = f32 (units a + units b) (2 ^ 149))

/-- R137: the evaluation of a value: `x` is `raw16` exactly, `t1` is `raw16 / 65536` exactly, `t2 = MUL *f t1` and
`v = ADD +f t2`, with the constants of R136; dividing after the multiplication instead of before gives the same value. -/
def Obligations.ValueIsTwoRoundings : Prop :=
  ∀ (kind : MeasurementKind) (raw : BitVec 16),
    let mul : F32 := match kind with | .temperature => 0x432FB852 | .humidity => 0x42FA0000
    let add : F32 := match kind with | .temperature => 0xC23B6666 | .humidity => 0xC0C00000
    ∃ x t1 : F32, units x = raw.toNat * 2 ^ 149 ∧ units t1 * 65536 = raw.toNat * 2 ^ 149 ∧
      physicalValue kind raw = addF add (mulF mul t1) ∧
      physicalValue kind raw = addF add (divF (mulF mul x) 0x47800000)

/-- R142: no special values: for every reading of either kind, `t1` is 0 or a normal number from 2^-14 to 1, `t2` is 0 or a normal
number, and the value is finite, normal and not zero. -/
def Obligations.NoSpecialValues : Prop :=
  ∀ (kind : MeasurementKind) (v : BitVec 14),
    (scaledReading (v ++ 0b00#2) = 0 ∨ (NormalF32 (scaledReading (v ++ 0b00#2)) ∧
      2 ^ 135 ≤ units (scaledReading (v ++ 0b00#2)) ∧ units (scaledReading (v ++ 0b00#2)) < 2 ^ 149)) ∧
    (scaledProduct kind (v ++ 0b00#2) = 0 ∨ NormalF32 (scaledProduct kind (v ++ 0b00#2))) ∧
    NormalF32 (physicalValue kind (v ++ 0b00#2)) ∧ units (physicalValue kind (v ++ 0b00#2)) ≠ 0

/-- R138: for Humidity the value is exactly (125 * raw16 - 393216) / 65536. -/
def Obligations.HumidityIsExact : Prop :=
  ∀ v : BitVec 14, units (physicalValue .humidity (v ++ 0b00#2)) * 65536 = (125 * (4 * (v.toNat : Int)) - 393216) * 2 ^ 149

/-- R138, R135: for Temperature the value is within 1.708984375e-5 (112 / 6553600) of -4685/100 + (17572/100) * raw16 / 65536, and
that distance is reached at `raw16` = 0xFF04. -/
def Obligations.TemperatureErrorBound : Prop :=
  (∀ v : BitVec 14,
    |units (physicalValue .temperature (v ++ 0b00#2)) * 6553600 - (17572 * (4 * (v.toNat : Int)) - 4685 * 65536) * 2 ^ 149|
      ≤ 112 * 2 ^ 149) ∧
  |units (physicalValue .temperature 0xFF04) * 6553600 - (17572 * 0xFF04 - 4685 * 65536) * 2 ^ 149| = 112 * 2 ^ 149

/-- R143: for each kind the value is strictly increasing in `raw14`. -/
def Obligations.ValueIsStrictlyMonotonic : Prop :=
  ∀ (kind : MeasurementKind) (v w : BitVec 14), v.toNat < w.toNat →
    units (physicalValue kind (v ++ 0b00#2)) < units (physicalValue kind (w ++ 0b00#2))

/-- R139: the extreme and notable results: the linear transform and nothing more, no clamping at either end. -/
def Obligations.NoClamping : Prop :=
  [0x0000, 0x4440, 0x4444, 0xFFFC].map (physicalValue .temperature) = [0xC23B6666, 0xBB35C000, 0x3C025000, 0x4300DBFA] ∧
  [0x0000, 0x0C48, 0x0C4C, 0xD914, 0xD918, 0xFFFC].map (physicalValue .humidity) =
    [0xC0C00000, 0xBB580000, 0x3B8E0000, 0x42C7FD88, 0x42C80170, 0x42EDFC18]

/-! ### The Frame Encoder -/

/-- R160 to R166: a build with at most 8 payload bytes answers `OK` and 15 + n, and the block then holds the frame
`7E 00 (11+n) ft 00 dst 00 payload checksum`, the checksum being 0xFF minus the byte sum of offsets 3 to 13 + n modulo 256:
cell `a` of `fbuf` reads as byte `a` of that frame, which is `build_frame`; `flen`, `rptr` and `fvalid` are set, and everything
else is unchanged. The cells from 15 + n on are unspecified (R166) and not mentioned. -/
def Obligations.BuildHoldsTheFrame : Prop :=
  ∀ (ft : Byte) (dst : Vector Byte 8) (payload : List Byte) (s : State), payload.length ≤ 8 →
    let body : List Byte := [ft, 0x00] ++ dst.toList ++ [0x00] ++ payload
    let frame : List Byte := [0x7E, 0x00, BitVec.ofNat 8 (11 + payload.length)] ++ body ++
      [BitVec.ofNat 8 (0xFF - (body.map BitVec.toNat).sum % 256)]
    ∃ fbuf : Memory,
      exec (.frmBuild ft dst payload) s = .next (answered [0x00, BitVec.ofNat 8 (15 + payload.length)]
        { s with fbuf := fbuf, flen := BitVec.ofNat 5 (15 + payload.length), rptr := 0, fvalid := true }) ∧
      frame.length = 15 + payload.length ∧ frame = buildFrame ft dst payload ∧
      (∀ a, a < 15 + payload.length → fbuf.read a = frame[a]?) ∧
      encode (.frmBuild ft dst payload) = [0x30, ft] ++ dst.toList ++ payload

/-- R161, R166, R213: a build with more than 8 payload bytes, however many, answers `[0x02]`, sets `ptl` and drops the frame held
before; `crc` and the rest are unchanged. What `fbuf` then holds is unspecified and not said. -/
def Obligations.OversizedBuildIsRejected : Prop :=
  ∀ (ft : Byte) (dst : Vector Byte 8) (payload : List Byte) (s : State), 8 < payload.length →
    ∃ fbuf : Memory, exec (.frmBuild ft dst payload) s = .next (answered [0x02]
      { s with ptl := true, fvalid := false, flen := 0, rptr := 0, fbuf := fbuf })

/-- R172: every successful build leaves `fbuf[0..flen-1]` well-formed, with `ft`, `dst` and `payload` where the rule says, and
`build_frame` is injective. -/
def Obligations.BuiltFramesAreWellFormedAndDistinct : Prop :=
  (∀ (ft : Byte) (dst : Vector Byte 8) (payload : List Byte) (s t : State), payload.length ≤ 8 →
    exec (.frmBuild ft dst payload) s = .next t →
    WellFormedFrame (heldFrame t) ∧ (heldFrame t).length = t.flen.toNat ∧ (heldFrame t)[3]? = some ft ∧
    ((heldFrame t).drop 5).take 8 = dst.toList ∧ ((heldFrame t).drop 14).dropLast = payload) ∧
  (∀ (ft ft' : Byte) (dst dst' : Vector Byte 8) (payload payload' : List Byte),
    payload.length ≤ 8 → payload'.length ≤ 8 → buildFrame ft dst payload = buildFrame ft' dst' payload' →
    ft = ft' ∧ dst = dst' ∧ payload = payload')

/-- R173: in a well-formed frame the bytes from offset 3 on, checksum included, sum to 0xFF modulo 256. -/
def Obligations.ReceiverCheckHolds : Prop :=
  ∀ f : List Byte, WellFormedFrame f → ((f.drop 3).map BitVec.toNat).sum % 256 = 0xFF

/-- R167: `FRM.LEN`, packet `[0x31]`, answers `flen` as a byte when a frame is held, `[0x03]` when none is, and changes nothing. -/
def Obligations.FrmLenReturnsTheFrameLength : Prop :=
  ∀ s : State,
    (s.fvalid = true → exec .frmLen s = .next (answered [0x00, BitVec.ofNat 8 s.flen.toNat] s)) ∧
    (s.fvalid = false → exec .frmLen s = .next (answered [0x03] s)) ∧
    encode .frmLen = [0x31]

/-- R168: `FRM.NEXT` answers the byte at `rptr` and increments `rptr` when a frame is held and `rptr` is not `flen`; at `flen` it
answers `[0x04]`, with no frame `[0x03]`, and changes nothing. The byte is the value the cell holds (log 4); in every state that
meets the invariant the cell holds one, and it is the next byte of the held frame. -/
def Obligations.FrmNextReturnsTheNextByte : Prop :=
  ∀ s : State,
    (∀ b, s.fvalid = true → s.rptr ≠ s.flen → s.rptr.toNat < 23 → s.fbuf.read s.rptr.toNat = some b →
      exec .frmNext s = .next (answered [0x00, b] { s with rptr := BitVec.ofNat 5 (s.rptr.toNat + 1) })) ∧
    (s.fvalid = true → s.rptr = s.flen → exec .frmNext s = .next (answered [0x04] s)) ∧
    (s.fvalid = false → exec .frmNext s = .next (answered [0x03] s)) ∧
    (Inv s → s.fvalid = true → s.rptr ≠ s.flen → ∃ b, (heldFrame s)[s.rptr.toNat]? = some b ∧
      exec .frmNext s = .next (answered [0x00, b] { s with rptr := BitVec.ofNat 5 (s.rptr.toNat + 1) }))

/-- R169: `FRM.REWIND`, packet `[0x33]`, sets `rptr` to 0 when a frame is held, answers `[0x03]` when none is, and changes nothing else. -/
def Obligations.FrmRewindRestartsTheReadOut : Prop :=
  ∀ s : State,
    (s.fvalid = true → exec .frmRewind s = .next (answered [0x00] { s with rptr := 0 })) ∧
    (s.fvalid = false → exec .frmRewind s = .next (answered [0x03] s)) ∧
    encode .frmRewind = [0x33]

/-- R55, R168, R175: a build from any state followed by exactly 15 + n `FRM.NEXT` commands returns the frame's bytes in wire
order, each with `OK`, and one more `FRM.NEXT` returns `END_OF_FRAME`. -/
def Obligations.BuildThenReadOutReturnsTheFrame : Prop :=
  ∀ (ft : Byte) (dst : Vector Byte 8) (payload : List Byte) (s : State) (rest : List HostMove), payload.length ≤ 8 →
    s.moves = issue (.frmBuild ft dst payload) :: List.replicate (16 + payload.length) (issue .frmNext) ++ rest →
    ∃ t, run (17 + payload.length) s = .next t ∧ t.moves = rest ∧ t.crc = s.crc ∧ t.rptr = t.flen ∧
      t.responses = s.responses ++ [[0x00, BitVec.ofNat 8 (15 + payload.length)]] ++
        (buildFrame ft dst payload).map (fun b => [0x00, b]) ++ [[0x04]]

/-- R170: `FRM.DRAIN`, issued in any state that meets the invariant and holds a frame, wherever its read-out stood, yields the
frame's bytes in order and one `END_OF_FRAME`, and changes nothing but the read position. With no frame held its first response
is `NO_FRAME`. -/
def Obligations.DrainYieldsTheHeldFrame : Prop :=
  ∀ (s : State) (rest : List HostMove), Inv s →
    (s.fvalid = true → s.moves = frmDrain s.flen.toNat ++ rest →
      run (s.flen.toNat + 2) s = .next
        { s with
          rptr := s.flen
          moves := rest
          responses := s.responses ++ [[0x00]] ++ (heldFrame s).map (fun b => [0x00, b]) ++ [[0x04]] }) ∧
    (s.fvalid = false → s.moves = issue .frmRewind :: rest → step s = .next (answered [0x03] { s with moves := rest }))
end

