-- ==== Sys2Proof/Laws/State.lean ====
section
/-!
SUPPORT. One lemma per field for every named update of State, so that no proof unfolds a record update.
-/

namespace Sys2Proof.Machine

/-! ### respond -/

@[simp] theorem respond_crc (st : Status) (results : List Byte) (s : State) : (respond st results s).crc = s.crc := rfl
@[simp] theorem respond_fbuf (st : Status) (results : List Byte) (s : State) : (respond st results s).fbuf = s.fbuf := rfl
@[simp] theorem respond_flen (st : Status) (results : List Byte) (s : State) : (respond st results s).flen = s.flen := rfl
@[simp] theorem respond_rptr (st : Status) (results : List Byte) (s : State) : (respond st results s).rptr = s.rptr := rfl
@[simp] theorem respond_fvalid (st : Status) (results : List Byte) (s : State) : (respond st results s).fvalid = s.fvalid := rfl
@[simp] theorem respond_ptl (st : Status) (results : List Byte) (s : State) : (respond st results s).ptl = s.ptl := rfl
@[simp] theorem respond_moves (st : Status) (results : List Byte) (s : State) : (respond st results s).moves = s.moves := rfl
@[simp] theorem respond_responses (st : Status) (results : List Byte) (s : State) : (respond st results s).responses = s.responses ++ [statusCode st :: results] := rfl

/-! ### dropFrame -/

@[simp] theorem dropFrame_crc (s : State) : (dropFrame s).crc = s.crc := rfl
@[simp] theorem dropFrame_fbuf (s : State) : (dropFrame s).fbuf = [] := rfl
@[simp] theorem dropFrame_flen (s : State) : (dropFrame s).flen = 0 := rfl
@[simp] theorem dropFrame_rptr (s : State) : (dropFrame s).rptr = 0 := rfl
@[simp] theorem dropFrame_fvalid (s : State) : (dropFrame s).fvalid = false := rfl
@[simp] theorem dropFrame_ptl (s : State) : (dropFrame s).ptl = s.ptl := rfl
@[simp] theorem dropFrame_moves (s : State) : (dropFrame s).moves = s.moves := rfl
@[simp] theorem dropFrame_responses (s : State) : (dropFrame s).responses = s.responses := rfl

/-! ### holdFrame -/

@[simp] theorem holdFrame_crc (frame : List Byte) (s : State) : (holdFrame frame s).crc = s.crc := rfl
@[simp] theorem holdFrame_fbuf (frame : List Byte) (s : State) : (holdFrame frame s).fbuf = Memory.writeAll [] 0 frame := rfl
@[simp] theorem holdFrame_flen (frame : List Byte) (s : State) : (holdFrame frame s).flen = BitVec.ofNat 5 frame.length := rfl
@[simp] theorem holdFrame_rptr (frame : List Byte) (s : State) : (holdFrame frame s).rptr = 0 := rfl
@[simp] theorem holdFrame_fvalid (frame : List Byte) (s : State) : (holdFrame frame s).fvalid = true := rfl
@[simp] theorem holdFrame_ptl (frame : List Byte) (s : State) : (holdFrame frame s).ptl = s.ptl := rfl
@[simp] theorem holdFrame_moves (frame : List Byte) (s : State) : (holdFrame frame s).moves = s.moves := rfl
@[simp] theorem holdFrame_responses (frame : List Byte) (s : State) : (holdFrame frame s).responses = s.responses := rfl

/-! ### applyReset -/

@[simp] theorem applyReset_crc (s : State) : (applyReset s).crc = 0x00 := rfl
@[simp] theorem applyReset_fbuf (s : State) : (applyReset s).fbuf = [] := rfl
@[simp] theorem applyReset_flen (s : State) : (applyReset s).flen = 0 := rfl
@[simp] theorem applyReset_rptr (s : State) : (applyReset s).rptr = 0 := rfl
@[simp] theorem applyReset_fvalid (s : State) : (applyReset s).fvalid = false := rfl
@[simp] theorem applyReset_ptl (s : State) : (applyReset s).ptl = false := rfl
@[simp] theorem applyReset_moves (s : State) : (applyReset s).moves = s.moves := rfl
@[simp] theorem applyReset_responses (s : State) : (applyReset s).responses = s.responses := rfl

/-! ### presentCommand -/

@[simp] theorem presentCommand_crc (cmd : Packet) (s : State) : (presentCommand cmd s).crc = s.crc := rfl
@[simp] theorem presentCommand_fbuf (cmd : Packet) (s : State) : (presentCommand cmd s).fbuf = s.fbuf := rfl
@[simp] theorem presentCommand_flen (cmd : Packet) (s : State) : (presentCommand cmd s).flen = s.flen := rfl
@[simp] theorem presentCommand_rptr (cmd : Packet) (s : State) : (presentCommand cmd s).rptr = s.rptr := rfl
@[simp] theorem presentCommand_fvalid (cmd : Packet) (s : State) : (presentCommand cmd s).fvalid = s.fvalid := rfl
@[simp] theorem presentCommand_ptl (cmd : Packet) (s : State) : (presentCommand cmd s).ptl = s.ptl := rfl
@[simp] theorem presentCommand_moves (cmd : Packet) (s : State) : (presentCommand cmd s).moves = .command cmd :: s.moves := rfl
@[simp] theorem presentCommand_responses (cmd : Packet) (s : State) : (presentCommand cmd s).responses = s.responses := rfl

/-! ### withMoves -/

@[simp] theorem withMoves_crc (moves : List HostMove) (s : State) : (withMoves moves s).crc = s.crc := rfl
@[simp] theorem withMoves_fbuf (moves : List HostMove) (s : State) : (withMoves moves s).fbuf = s.fbuf := rfl
@[simp] theorem withMoves_flen (moves : List HostMove) (s : State) : (withMoves moves s).flen = s.flen := rfl
@[simp] theorem withMoves_rptr (moves : List HostMove) (s : State) : (withMoves moves s).rptr = s.rptr := rfl
@[simp] theorem withMoves_fvalid (moves : List HostMove) (s : State) : (withMoves moves s).fvalid = s.fvalid := rfl
@[simp] theorem withMoves_ptl (moves : List HostMove) (s : State) : (withMoves moves s).ptl = s.ptl := rfl
@[simp] theorem withMoves_moves (moves : List HostMove) (s : State) : (withMoves moves s).moves = moves := rfl
@[simp] theorem withMoves_responses (moves : List HostMove) (s : State) : (withMoves moves s).responses = s.responses := rfl

/-! ### answered -/

@[simp] theorem answered_crc (packet : Packet) (s : State) : (answered packet s).crc = s.crc := rfl
@[simp] theorem answered_fbuf (packet : Packet) (s : State) : (answered packet s).fbuf = s.fbuf := rfl
@[simp] theorem answered_flen (packet : Packet) (s : State) : (answered packet s).flen = s.flen := rfl
@[simp] theorem answered_rptr (packet : Packet) (s : State) : (answered packet s).rptr = s.rptr := rfl
@[simp] theorem answered_fvalid (packet : Packet) (s : State) : (answered packet s).fvalid = s.fvalid := rfl
@[simp] theorem answered_ptl (packet : Packet) (s : State) : (answered packet s).ptl = s.ptl := rfl
@[simp] theorem answered_moves (packet : Packet) (s : State) : (answered packet s).moves = s.moves := rfl
@[simp] theorem answered_responses (packet : Packet) (s : State) : (answered packet s).responses = s.responses ++ [packet] := rfl

end Sys2Proof.Machine
end

