-- ==== Sys2Proof/Laws/Memory.lean ====
section
/-!
SUPPORT. The laws of the frame buffer as memory: what a read gives after a write, and that every operation keeps the canonical
form.
-/

namespace Sys2Proof.Machine

@[simp] theorem Memory.read_nil (a : Nat) : Memory.read [] a = none := rfl

theorem Memory.read_cons (c : Host.Cell) (m : Memory) (a : Nat) :
    Memory.read (c :: m) a = if c.1 = a then some c.2 else Memory.read m a := rfl

/-- A read after a write to the same offset gives the value written. -/
@[simp] theorem Memory.read_write_same (m : Memory) (a : Nat) (v : Byte) : (m.write a v).read a = some v := by
  induction m with
  | nil => simp [Memory.write, Memory.read_cons]
  | cons c m ih =>
    simp only [Memory.write]
    split
    · simp [Memory.read_cons]
    · split
      · simp [Memory.read_cons]
      · rename_i h
        rw [Memory.read_cons, if_neg (fun e => h e.symm), ih]

/-- A write leaves every other offset alone, in any list of cells. -/
theorem Memory.read_write_other (m : Memory) {a x : Nat} (v : Byte) (h : x ≠ a) : (m.write a v).read x = m.read x := by
  induction m with
  | nil => simp [Memory.write, Memory.read_cons, h.symm]
  | cons c m ih =>
    simp only [Memory.write]
    split
    · simp [Memory.read_cons, h.symm]
    · split
      · rename_i hc
        simp [Memory.read_cons, h.symm, show c.1 ≠ x from fun e => h (e ▸ hc.symm)]
      · simp [Memory.read_cons, ih]

/-- The offsets listed after a write: the old ones and the new one. -/
theorem Memory.mem_write_offsets (m : Memory) (a x : Nat) (v : Byte) :
    x ∈ (m.write a v).map Prod.fst ↔ x = a ∨ x ∈ m.map Prod.fst := by
  induction m with
  | nil => simp [Memory.write]
  | cons c m ih =>
    simp only [Memory.write]
    split
    · simp
    · split
      · rename_i hc
        simp [hc]
      · simp only [List.map_cons, List.mem_cons, ih]
        tauto

/-- A write to an offset that exists keeps the canonical form. -/
theorem Memory.write_wf {m : Memory} {a : Nat} (v : Byte) (h : Memory.wf m) (ha : a < Config.frameCap) :
    Memory.wf (m.write a v) := by
  refine ⟨?_, fun x hx => ?_⟩
  · have hp := h.1
    clear h
    induction m with
    | nil => simp [Memory.write]
    | cons c m ih =>
      simp only [List.map_cons, List.pairwise_cons] at hp
      simp only [Memory.write]
      split
      · rename_i hlt
        simp only [List.map_cons, List.pairwise_cons, List.mem_cons]
        exact ⟨fun x hx => hx.elim (fun e => e ▸ hlt) (fun hm => Nat.lt_trans hlt (hp.1 x hm)), hp⟩
      · split
        · rename_i hc
          simp only [List.map_cons, List.pairwise_cons]
          exact ⟨fun x hx => hc ▸ hp.1 x hx, hp.2⟩
        · simp only [List.map_cons, List.pairwise_cons]
          refine ⟨fun x hx => ?_, ih hp.2⟩
          rcases (Memory.mem_write_offsets m a x v).1 hx with e | hm
          · omega
          · exact hp.1 x hm
  · rcases (Memory.mem_write_offsets m a x v).1 hx with e | hm
    · exact e ▸ ha
    · exact h.2 x hm

/-- What a run of writes leaves at each offset: the bytes written where it wrote, everything else as before. -/
theorem Memory.read_writeAll (bytes : List Byte) (m : Memory) (a x : Nat) :
    (m.writeAll a bytes).read x = if a ≤ x ∧ x < a + bytes.length then bytes[x - a]? else m.read x := by
  induction bytes generalizing m a with
  | nil =>
    simp only [Memory.writeAll, List.length_nil, Nat.add_zero]
    rw [if_neg (by omega)]
  | cons b rest ih =>
    simp only [Memory.writeAll, ih, List.length_cons]
    by_cases hx : x = a
    · subst hx
      rw [if_neg (by omega), if_pos (by omega)]
      simp
    · by_cases hr : a + 1 ≤ x ∧ x < a + 1 + rest.length
      · rw [if_pos hr, if_pos (by omega), show x - a = (x - (a + 1)) + 1 by omega]
        simp
      · rw [if_neg hr, if_neg (by omega), Memory.read_write_other _ _ hx]

/-- A buffer written from offset 0 with nothing else in it reads as the bytes written. -/
theorem Memory.read_writeAll_nil (bytes : List Byte) (x : Nat) : (Memory.writeAll [] 0 bytes).read x = bytes[x]? := by
  rw [Memory.read_writeAll]
  by_cases h : x < bytes.length <;> simp [h]

/-- A run of writes within the buffer keeps the canonical form. -/
theorem Memory.writeAll_wf (bytes : List Byte) {m : Memory} {a : Nat} (h : Memory.wf m)
    (ha : a + bytes.length ≤ Config.frameCap) : Memory.wf (m.writeAll a bytes) := by
  induction bytes generalizing m a with
  | nil => exact h
  | cons b rest ih =>
    simp only [List.length_cons] at ha
    exact ih (Memory.write_wf b h (by omega)) (by omega)

theorem Memory.nil_wf : Memory.wf [] := by decide

/-- A cell that holds a value is at an offset that exists. -/
theorem Memory.lt_of_read_some {m : Memory} {a : Nat} {b : Byte} (h : Memory.wf m) (hr : m.read a = some b) :
    a < Config.frameCap := by
  refine h.2 a ?_
  clear h
  induction m with
  | nil => simp at hr
  | cons c m ih =>
    simp only [Memory.read_cons] at hr
    split at hr
    · rename_i e
      simp [e]
    · simp only [List.map_cons, List.mem_cons]
      exact .inr (ih hr)

/-- The reset state's memory is in canonical form. -/
theorem State.reset_memory_wf : Memory.wf State.reset.fbuf := Memory.nil_wf

end Sys2Proof.Machine
end

