-- ==== Sys2Proof/Laws/Ops.lean ====
section
/-!
SUPPORT. What each shared operation can do, said once.
-/

namespace Sys2Proof.Machine

/-- A reply is a next state in which only the responses have grown. -/
@[simp] theorem reply_eq_next (results : List Byte) (s : State) :
    reply results s = .next (answered (0x00 :: results) s) := rfl

/-- Raising an error other than `PayloadTooLarge` changes only the responses. -/
@[simp] theorem raise_wrongKind (s : State) : raise .wrongKind s = .next (answered [0x01] s) := rfl
@[simp] theorem raise_noFrame (s : State) : raise .noFrame s = .next (answered [0x03] s) := rfl
@[simp] theorem raise_endOfFrame (s : State) : raise .endOfFrame s = .next (answered [0x04] s) := rfl
@[simp] theorem raise_illegal (s : State) : raise .illegal s = .next (answered [0xFF] s) := rfl

/-- Raising `PayloadTooLarge` sets `ptl` and drops the frame. -/
@[simp] theorem raise_payloadTooLarge (s : State) :
    raise .payloadTooLarge s = .next (answered [0x02] (dropFrame { s with ptl := true })) := rfl

/-- A read succeeds exactly on an existing offset whose cell holds a value. -/
theorem memRead_ok_iff (a : Nat) (s : State) (b : Byte) :
    memRead a s = .ok b ↔ a < Config.frameCap ∧ s.fbuf.read a = some b := by
  unfold memRead
  split
  · split <;> simp_all
  · simp_all

/-- A read of a canonical buffer succeeds where the cell holds a value. -/
theorem memRead_of_read {s : State} {a : Nat} {b : Byte} (h : Memory.wf s.fbuf) (hr : s.fbuf.read a = some b) :
    memRead a s = .ok b :=
  (memRead_ok_iff a s b).2 ⟨Memory.lt_of_read_some h hr, hr⟩

theorem applyReset_eq (s : State) :
    applyReset s = { State.reset with moves := s.moves, responses := s.responses } := rfl

/-- The state after a frame is installed reads, at every offset, as the frame. -/
theorem holdFrame_read (frame : List Byte) (s : State) (a : Nat) : (holdFrame frame s).fbuf.read a = frame[a]? :=
  Memory.read_writeAll_nil frame a

end Sys2Proof.Machine
end

