-- ==== Sys2Proof/Laws/Binary32.lean ====
section
/-!
SUPPORT. Small facts about rounding, and the value of a reading (spec/41_decoder.md R137) as integer arithmetic on small
numbers: a form in which the kernel can check all readings one by one (`units_physicalValue`, `roundUnitsQuick`, `allBelow`).
`Nat.log2` counts bits one by one and `log2Halving` by halving the width; powers of two are taken out because numbers that end in
many zero bits make the kernel's tables slow.
-/

namespace Sys2Proof.Machine

/-- Rounding to the nearest natural is never further than half a unit from the quotient. -/
theorem roundHalfEven_near (p : Nat) {q : Nat} (hq : 0 < q) :
    2 * (roundHalfEven p q * q) ≤ 2 * p + q ∧ 2 * p ≤ 2 * (roundHalfEven p q * q) + q := by
  have hd := Nat.div_add_mod p q
  have hm := Nat.mod_lt p hq
  have hc := Nat.mul_comm (p / q) q
  unfold roundHalfEven
  dsimp only
  split
  · omega
  · split
    · rw [Nat.add_mul]
      omega
    · rcases Nat.mod_two_eq_zero_or_one (p / q) with e | e
      · rw [e, Nat.add_zero]
        omega
      · rw [e, Nat.add_mul]
        omega

/-- An exact quotient is rounded to itself. -/
theorem roundHalfEven_mul (m : Nat) {q : Nat} (hq : 0 < q) : roundHalfEven (m * q) q = m := by
  unfold roundHalfEven
  simp [Nat.mul_div_cancel m hq, hq]

/-- A half is rounded to the even neighbour. -/
theorem roundHalfEven_tie {p q : Nat} (h : 2 * p = (2 * (p / q) + 1) * q) : roundHalfEven p q % 2 = 0 := by
  have hd := Nat.div_add_mod p q
  have hc := Nat.mul_comm (p / q) q
  rw [Nat.add_mul, Nat.one_mul, Nat.mul_assoc] at h
  unfold roundHalfEven
  dsimp only
  rw [if_neg (by omega), if_neg (by omega)]
  omega

/-- `Nat.log2` of a number below 2^(2^depth), by halving the width. -/
def log2Halving (depth u : Nat) : Nat :=
  match depth with
  | 0 => 0
  | d + 1 => if u < 2 ^ 2 ^ d then log2Halving d u else 2 ^ d + log2Halving d (u / 2 ^ 2 ^ d)

theorem log2Halving_eq (depth : Nat) {u : Nat} (h : u < 2 ^ 2 ^ depth) : log2Halving depth u = Nat.log2 u := by
  induction depth generalizing u with
  | zero =>
    have : u = 0 ∨ u = 1 := by
      simp at h
      omega
    rcases this with rfl | rfl <;> decide
  | succ d ih =>
    simp only [log2Halving]
    split
    · exact ih ‹_›
    · rename_i hge
      have hpos : 0 < 2 ^ 2 ^ d := Nat.two_pow_pos _
      have hsq : 2 ^ 2 ^ (d + 1) = 2 ^ 2 ^ d * 2 ^ 2 ^ d := by
        rw [← Nat.pow_add]
        congr 1
        rw [Nat.pow_succ]
        omega
      have hq : u / 2 ^ 2 ^ d < 2 ^ 2 ^ d := by
        rw [Nat.div_lt_iff_lt_mul hpos, ← hsq]
        exact h
      have hne : u / 2 ^ 2 ^ d ≠ 0 := by
        have := Nat.div_pos (Nat.le_of_not_lt hge) hpos
        omega
      rw [ih hq]
      symm
      have hu : u ≠ 0 := by
        rintro rfl
        simp at hne
      rw [Nat.log2_eq_iff hu]
      have hlo := Nat.log2_self_le hne
      have hhi := Nat.lt_log2_self (n := u / 2 ^ 2 ^ d)
      constructor
      · rw [Nat.pow_add, Nat.mul_comm]
        exact (Nat.le_div_iff_mul_le hpos).1 hlo
      · rw [Nat.add_assoc, Nat.pow_add, Nat.mul_comm]
        exact (Nat.div_lt_iff_lt_mul hpos).1 hhi

/-- Rounding depends on the quotient alone. -/
theorem roundHalfEven_scale (p q : Nat) {c : Nat} (hc : 0 < c) : roundHalfEven (p * c) (q * c) = roundHalfEven p q := by
  have h1 : ∀ x y : Nat, x * c < y * c ↔ x < y := fun x y => Nat.mul_lt_mul_right hc
  have h2 : p * c % (q * c) = p % q * c := Nat.mul_mod_mul_right c p q
  unfold roundHalfEven
  simp only [Nat.mul_div_mul_right p q hc, h2, ← Nat.mul_assoc, h1]

theorem roundMagnitude_scale (p q : Nat) {c : Nat} (hc : 0 < c) : roundMagnitude (p * c) (q * c) = roundMagnitude p q := by
  have h1 : ∀ x : Nat, p * c * x = p * x * c := fun x => Nat.mul_right_comm p c x
  have h2 : ∀ x : Nat, q * c * x = q * x * c := fun x => Nat.mul_right_comm q c x
  unfold roundMagnitude
  simp only [h1, h2, Nat.mul_div_mul_right _ _ hc, roundHalfEven_scale _ _ hc]

/-- `f32` depends on the quotient alone. -/
theorem f32_scale (num : Int) (den : Nat) {c : Nat} (hc : 0 < c) : f32 (num * c) (den * c) = f32 num den := by
  have h : decide (num * (c : Int) < 0) = decide (num < 0) := by
    have : num * (c : Int) < 0 ↔ num < 0 := by
      have hc' : (0 : Int) < c := by exact_mod_cast hc
      constructor
      · intro hn
        by_contra hge
        exact absurd (mul_nonneg (not_lt.1 hge) hc'.le) (not_le.2 hn)
      · exact fun hn => mul_neg_of_neg_of_pos hn hc'
    simp only [this]
  simp only [f32, h, Int.natAbs_mul, Int.natAbs_natCast, roundMagnitude_scale _ _ hc]

/-- A whole number of units of 2^-149 rounded to 24 significant bits, ties to even: the form of `roundMagnitude` on numbers of
units. -/
def roundUnits (u : Nat) : Nat :=
  let k := Nat.log2 u - 23
  roundHalfEven u (2 ^ k) * 2 ^ k

/-- `roundUnits` with a sign. -/
def roundUnitsInt (z : Int) : Int :=
  if z < 0 then - (roundUnits z.natAbs : Int) else (roundUnits z.natAbs : Int)

/-- The pattern of sign `s`, exponent and fraction `bits` is read back as those. -/
theorem units_of_parts (s : Bool) {bits : Nat} (h : bits < 2 ^ 31) :
    units (BitVec.ofBool s ++ BitVec.ofNat 31 bits) =
      (let a : Nat := if bits / 2 ^ 23 = 0 then bits % 2 ^ 23 else (2 ^ 23 + bits % 2 ^ 23) * 2 ^ (bits / 2 ^ 23 - 1)
       if s then - (a : Int) else (a : Int)) := by
  have hm : (BitVec.ofBool s ++ BitVec.ofNat 31 bits : F32).toNat = s.toNat * 2 ^ 31 + bits := by
    rw [BitVec.toNat_append, BitVec.toNat_ofNat, Nat.mod_eq_of_lt h, BitVec.toNat_ofBool, ← Nat.shiftLeft_add_eq_or_of_lt h,
      Nat.shiftLeft_eq]
  have hs : (BitVec.ofBool s ++ BitVec.ofNat 31 bits : F32).msb = s := by
    rw [BitVec.msb_eq_decide, hm]
    cases s
    · simp only [Bool.toNat_false]
      exact decide_eq_false (by omega)
    · simp only [Bool.toNat_true]
      exact decide_eq_true (by omega)
  have he : ((BitVec.ofBool s ++ BitVec.ofNat 31 bits : F32).extractLsb' 23 8).toNat = bits / 2 ^ 23 := by
    rw [BitVec.extractLsb'_toNat, hm, Nat.shiftRight_eq_div_pow]
    cases s
    · simp only [Bool.toNat_false]
      omega
    · simp only [Bool.toNat_true]
      omega
  have hf : ((BitVec.ofBool s ++ BitVec.ofNat 31 bits : F32).extractLsb' 0 23).toNat = bits % 2 ^ 23 := by
    rw [BitVec.extractLsb'_toNat, hm, Nat.shiftRight_zero]
    cases s
    · simp only [Bool.toNat_false]
      omega
    · simp only [Bool.toNat_true]
      omega
  unfold units unitsAbs
  simp only [hs, he, hf]

/-- The significand of a rounded number has at most 24 bits, or is 2^24 after a carry, and is normal above the lowest binade. -/
theorem roundUnits_significand {u : Nat} (hu : u ≠ 0) :
    roundHalfEven u (2 ^ (Nat.log2 u - 23)) ≤ 2 ^ 24 ∧
    (Nat.log2 u - 23 ≠ 0 → 2 ^ 23 ≤ roundHalfEven u (2 ^ (Nat.log2 u - 23))) := by
  have hlo := Nat.log2_self_le hu
  have hhi := Nat.lt_log2_self (n := u)
  have hq : 0 < 2 ^ (Nat.log2 u - 23) := Nat.two_pow_pos _
  have hnear := roundHalfEven_near u hq
  constructor
  · have h : u < 2 ^ 24 * 2 ^ (Nat.log2 u - 23) := by
      refine Nat.lt_of_lt_of_le hhi ?_
      rw [← Nat.pow_add]
      exact Nat.pow_le_pow_right (by decide) (by omega)
    generalize 2 ^ (Nat.log2 u - 23) = c at *
    by_contra hc
    have : (2 ^ 24 + 1) * c ≤ roundHalfEven u c * c := Nat.mul_le_mul_right c (by omega)
    rw [Nat.add_mul] at this
    omega
  · intro hk
    have h : 2 ^ 23 * 2 ^ (Nat.log2 u - 23) ≤ u := by
      rw [← Nat.pow_add, show 23 + (Nat.log2 u - 23) = Nat.log2 u by omega]
      exact hlo
    generalize 2 ^ (Nat.log2 u - 23) = c at *
    by_contra hc
    have : (roundHalfEven u c + 1) * c ≤ 2 ^ 23 * c := Nat.mul_le_mul_right c (by omega)
    rw [Nat.add_mul] at this
    omega

/-- Rounding a whole number of units below the top of the format. -/
theorem roundMagnitude_units {u : Nat} (hu : u < 2 ^ 250) :
    roundMagnitude u (2 ^ 149) = (Nat.log2 u - 23) * 2 ^ 23 + roundHalfEven u (2 ^ (Nat.log2 u - 23)) ∧
    roundMagnitude u (2 ^ 149) < 2 ^ 31 := by
  have hdiv : u * 2 ^ 149 / 2 ^ 149 = u := Nat.mul_div_cancel u (Nat.two_pow_pos 149)
  have hr : roundHalfEven (u * 2 ^ 149) (2 ^ 149 * 2 ^ (Nat.log2 u - 23)) = roundHalfEven u (2 ^ (Nat.log2 u - 23)) := by
    rw [Nat.mul_comm (2 ^ 149)]
    exact roundHalfEven_scale _ _ (Nat.two_pow_pos 149)
  have hb : (Nat.log2 u - 23) * 2 ^ 23 + roundHalfEven u (2 ^ (Nat.log2 u - 23)) < 0x7F800000 := by
    by_cases h0 : u = 0
    · subst h0
      decide
    · have := (roundUnits_significand h0).1
      have hl : Nat.log2 u < 250 := (Nat.log2_lt h0).2 hu
      omega
  unfold roundMagnitude
  simp only [hdiv, hr, if_pos hb, true_and]
  omega

/-- The value of `f32` of a whole number of units (R14): the units rounded to 24 significant bits. -/
theorem units_f32_units (z : Int) (hz : z.natAbs < 2 ^ 250) : units (f32 z (2 ^ 149)) = roundUnitsInt z := by
  obtain ⟨hb, hlt⟩ := roundMagnitude_units hz
  unfold f32
  rw [units_of_parts _ hlt, hb]
  have key : (if ((Nat.log2 z.natAbs - 23) * 2 ^ 23 + roundHalfEven z.natAbs (2 ^ (Nat.log2 z.natAbs - 23))) / 2 ^ 23 = 0
      then ((Nat.log2 z.natAbs - 23) * 2 ^ 23 + roundHalfEven z.natAbs (2 ^ (Nat.log2 z.natAbs - 23))) % 2 ^ 23
      else (2 ^ 23 + ((Nat.log2 z.natAbs - 23) * 2 ^ 23 + roundHalfEven z.natAbs (2 ^ (Nat.log2 z.natAbs - 23))) % 2 ^ 23) *
        2 ^ (((Nat.log2 z.natAbs - 23) * 2 ^ 23 + roundHalfEven z.natAbs (2 ^ (Nat.log2 z.natAbs - 23))) / 2 ^ 23 - 1)) =
      roundUnits z.natAbs := by
    by_cases h0 : z.natAbs = 0
    · rw [h0]
      decide
    · obtain ⟨h1, h2⟩ := roundUnits_significand h0
      unfold roundUnits
      dsimp only
      generalize Nat.log2 z.natAbs - 23 = k at *
      generalize roundHalfEven z.natAbs (2 ^ k) = m at *
      by_cases hk : k = 0
      · subst hk
        rcases Nat.lt_or_ge m (2 ^ 23) with hm | hm
        · rw [if_pos (by omega)]
          omega
        · rcases Nat.lt_or_ge m (2 ^ 24) with hm' | hm'
          · rw [if_neg (by omega), show (0 * 2 ^ 23 + m) / 2 ^ 23 - 1 = 0 by omega]
            omega
          · obtain rfl : m = 2 ^ 24 := by omega
            decide
      · have := h2 hk
        rcases Nat.lt_or_ge m (2 ^ 24) with hm' | hm'
        · rw [if_neg (by omega), show (k * 2 ^ 23 + m) / 2 ^ 23 - 1 = k by omega,
            show 2 ^ 23 + (k * 2 ^ 23 + m) % 2 ^ 23 = m by omega]
        · obtain rfl : m = 2 ^ 24 := by omega
          rw [if_neg (by omega), show (k * 2 ^ 23 + 2 ^ 24) / 2 ^ 23 - 1 = k + 1 by omega,
            show 2 ^ 23 + (k * 2 ^ 23 + 2 ^ 24) % 2 ^ 23 = 2 ^ 23 by omega, Nat.pow_succ]
          omega
  dsimp only
  rw [key]
  unfold roundUnitsInt
  by_cases hneg : z < 0 <;> simp [hneg]

/-- A number with at most 24 significant bits is rounded to itself. -/
theorem roundUnits_exact {m : Nat} (j : Nat) (hm : m < 2 ^ 24) : roundUnits (m * 2 ^ j) = m * 2 ^ j := by
  unfold roundUnits
  dsimp only
  by_cases h0 : m = 0
  · subst h0
    simp [roundHalfEven]
  · have hne : m * 2 ^ j ≠ 0 := Nat.mul_ne_zero h0 (Nat.two_pow_pos j).ne'
    have hk : Nat.log2 (m * 2 ^ j) - 23 ≤ j := by
      have : Nat.log2 (m * 2 ^ j) < 24 + j := by
        rw [Nat.log2_lt hne, Nat.pow_add]
        exact Nat.mul_lt_mul_of_pos_right hm (Nat.two_pow_pos j)
      omega
    generalize Nat.log2 (m * 2 ^ j) - 23 = k at *
    have hs : m * 2 ^ j = m * 2 ^ (j - k) * 2 ^ k := by
      rw [Nat.mul_assoc, ← Nat.pow_add, Nat.sub_add_cancel hk]
    rw [hs, roundHalfEven_mul _ (Nat.two_pow_pos k)]

/-- "`x = f32(raw16)` exact" (R137). -/
theorem units_f32_raw (raw : BitVec 16) : units (f32 raw.toNat 1) = (raw.toNat * 2 ^ 149 : Nat) := by
  have hlt := raw.isLt
  have h := f32_scale raw.toNat 1 (Nat.two_pow_pos 149)
  rw [Nat.one_mul] at h
  have hb : raw.toNat * 2 ^ 149 < 2 ^ 250 := by omega
  rw [← h, units_f32_units _ (by rw [← Int.natCast_mul, Int.natAbs_natCast]; exact hb)]
  unfold roundUnitsInt
  rw [← Int.natCast_mul, if_neg (by omega), Int.natAbs_natCast, roundUnits_exact 149 (by omega)]

/-- "`t1 = x / 65536.0` exact" (R137): `t1` is `raw16 * 2^133` units, that is `raw16 / 2^16`. -/
theorem units_scaledReading (raw : BitVec 16) : units (scaledReading raw) = (raw.toNat * 2 ^ 133 : Nat) := by
  have hlt := raw.isLt
  have hs : unitsAbs Config.scale = 2 ^ 149 * 2 ^ 16 := by decide
  have hx : ((raw.toNat * 2 ^ 149 : Nat) : Int) = ((raw.toNat * 2 ^ 133 : Nat) : Int) * ((2 ^ 16 : Nat) : Int) := by
    rw [← Int.natCast_mul, Nat.mul_assoc, ← Nat.pow_add]
  have hb : raw.toNat * 2 ^ 133 < 2 ^ 250 := by omega
  unfold scaledReading divF
  rw [units_f32_raw, hs, hx, f32_scale _ _ (Nat.two_pow_pos 16), units_f32_units _ (by rw [Int.natAbs_natCast]; exact hb)]
  unfold roundUnitsInt
  rw [if_neg (by omega), Int.natAbs_natCast, roundUnits_exact 133 (by omega)]

/-- Powers of two pass through the rounding. -/
theorem roundUnits_shift (m j : Nat) : roundUnits (m * 2 ^ j) = roundUnits m * 2 ^ j := by
  by_cases hm : m < 2 ^ 24
  · rw [roundUnits_exact j hm]
    have := roundUnits_exact 0 hm
    rw [Nat.pow_zero, Nat.mul_one] at this
    rw [this]
  · have h0 : m ≠ 0 := by
      rintro rfl
      exact hm (by decide)
    have hl : Nat.log2 (m * 2 ^ j) = Nat.log2 m + j := by
      rw [Nat.log2_eq_iff (Nat.mul_ne_zero h0 (Nat.two_pow_pos j).ne'), Nat.pow_add, Nat.add_right_comm, Nat.pow_add]
      exact ⟨Nat.mul_le_mul_right _ (Nat.log2_self_le h0), Nat.mul_lt_mul_of_pos_right Nat.lt_log2_self (Nat.two_pow_pos j)⟩
    have hge : 24 ≤ Nat.log2 m := (Nat.le_log2 h0).2 (Nat.le_of_not_lt hm)
    unfold roundUnits
    dsimp only
    rw [hl, show Nat.log2 m + j - 23 = Nat.log2 m - 23 + j by omega, Nat.pow_add,
      roundHalfEven_scale _ _ (Nat.two_pow_pos j), Nat.mul_assoc]

theorem roundUnitsInt_shift (z : Int) (j : Nat) :
    roundUnitsInt (z * (2 ^ j : Nat)) = roundUnitsInt z * (2 ^ j : Nat) := by
  have hpos : (0 : Int) < (2 ^ j : Nat) := by exact_mod_cast Nat.two_pow_pos j
  have h : z * ((2 ^ j : Nat) : Int) < 0 ↔ z < 0 := by
    constructor
    · intro hn
      by_contra hge
      exact absurd (mul_nonneg (not_lt.1 hge) hpos.le) (not_le.2 hn)
    · exact fun hn => mul_neg_of_neg_of_pos hn hpos
  unfold roundUnitsInt
  simp only [h, Int.natAbs_mul, Int.natAbs_natCast, roundUnits_shift, Int.natCast_mul]
  split
  · rw [Int.neg_mul]
  · rfl

/-- Values of a kind are taken in units of 2^(`unitShift` - 149): 2^-31 for Temperature, 2^-16 for Humidity. -/
def unitShift (kind : MeasurementKind) : Nat :=
  match kind with
  | .temperature => 118
  | .humidity => 133

/-- The multiplier of a kind over 65536, in those units. -/
def mulSmall (kind : MeasurementKind) : Nat :=
  match kind with
  | .temperature => 5757993
  | .humidity => 125

/-- The additive constant of a kind, negated, in those units. -/
def subSmall (kind : MeasurementKind) : Nat :=
  match kind with
  | .temperature => 6140723 * 2 ^ 14
  | .humidity => 6 * 2 ^ 16

/-- `t2` (R137): the exact product, rounded once. -/
theorem units_scaledProduct (kind : MeasurementKind) (raw : BitVec 16) :
    units (scaledProduct kind raw) = (roundUnits (mulSmall kind * raw.toNat) * 2 ^ unitShift kind : Nat) := by
  have hlt := raw.isLt
  have hm : units (kindMul kind) = ((mulSmall kind * 2 ^ (unitShift kind + 16) : Nat) : Int) := by cases kind <;> decide
  have hn : mulSmall kind * 2 ^ (unitShift kind + 16) * (raw.toNat * 2 ^ 133) =
      mulSmall kind * raw.toNat * 2 ^ unitShift kind * 2 ^ 149 := by
    generalize mulSmall kind = m
    generalize unitShift kind = j
    rw [Nat.pow_add, show (2 : Nat) ^ 149 = 2 ^ 16 * 2 ^ 133 from (Nat.pow_add 2 16 133)]
    ring
  have hp : ((mulSmall kind * 2 ^ (unitShift kind + 16) : Nat) : Int) * ((raw.toNat * 2 ^ 133 : Nat) : Int) =
      ((mulSmall kind * raw.toNat * 2 ^ unitShift kind : Nat) : Int) * ((2 ^ 149 : Nat) : Int) := by
    rw [← Int.natCast_mul, ← Int.natCast_mul, hn]
  have hb : mulSmall kind * raw.toNat * 2 ^ unitShift kind < 2 ^ 250 := by
    have : mulSmall kind * 2 ^ unitShift kind < 2 ^ 200 := by cases kind <;> decide
    calc mulSmall kind * raw.toNat * 2 ^ unitShift kind = mulSmall kind * 2 ^ unitShift kind * raw.toNat := by ring
      _ ≤ 2 ^ 200 * 2 ^ 16 := Nat.mul_le_mul this.le hlt.le
      _ < 2 ^ 250 := by decide
  unfold scaledProduct mulF
  rw [hm, units_scaledReading, hp, f32_scale _ _ (Nat.two_pow_pos 149),
    units_f32_units _ (by rw [Int.natAbs_natCast]; exact hb), Int.natCast_mul, roundUnitsInt_shift]
  unfold roundUnitsInt
  rw [if_neg (by omega), Int.natAbs_natCast, Int.natCast_mul]

/-- The value (R137): the exact sum of the constant and `t2`, rounded once. -/
theorem units_physicalValue (kind : MeasurementKind) (raw : BitVec 16) :
    units (physicalValue kind raw) =
      roundUnitsInt ((roundUnits (mulSmall kind * raw.toNat) : Int) - subSmall kind) * (2 ^ unitShift kind : Nat) := by
  have hlt := raw.isLt
  have ha : units (kindAdd kind) = - ((subSmall kind * 2 ^ unitShift kind : Nat) : Int) := by cases kind <;> decide
  have hb : mulSmall kind * raw.toNat < 2 ^ 40 := by
    have : mulSmall kind ≤ 5757993 := by cases kind <;> decide
    calc mulSmall kind * raw.toNat ≤ 5757993 * 2 ^ 16 := Nat.mul_le_mul this hlt.le
      _ < 2 ^ 40 := by decide
  have hr : roundUnits (mulSmall kind * raw.toNat) ≤ 2 ^ 24 * 2 ^ 40 := by
    by_cases h0 : mulSmall kind * raw.toNat = 0
    · rw [h0]
      decide
    · have hl : Nat.log2 (mulSmall kind * raw.toNat) < 40 := (Nat.log2_lt h0).2 hb
      exact Nat.mul_le_mul (roundUnits_significand h0).1 (Nat.pow_le_pow_right (by decide) (by omega))
  have hz : - ((subSmall kind * 2 ^ unitShift kind : Nat) : Int) +
      ((roundUnits (mulSmall kind * raw.toNat) * 2 ^ unitShift kind : Nat) : Int) =
      ((roundUnits (mulSmall kind * raw.toNat) : Int) - subSmall kind) * (2 ^ unitShift kind : Nat) := by
    rw [Int.natCast_mul, Int.natCast_mul]
    ring
  unfold physicalValue addF
  rw [ha, units_scaledProduct, hz, units_f32_units, roundUnitsInt_shift]
  rw [Int.natAbs_mul, Int.natAbs_natCast]
  have hs : subSmall kind ≤ 2 ^ 40 := by cases kind <;> decide
  have hw : 2 ^ unitShift kind ≤ 2 ^ 133 := by cases kind <;> decide
  calc _ ≤ 2 ^ 65 * 2 ^ 133 := Nat.mul_le_mul (by omega) hw
    _ < 2 ^ 250 := by decide

/-- A value of at least 2^23 units and below 2^250 units has a normal pattern (R14). -/
theorem normalF32_of_units {v : F32} (hlo : 2 ^ 23 ≤ (units v).natAbs) (hhi : (units v).natAbs < 2 ^ 250) : NormalF32 v := by
  have habs : (units v).natAbs = unitsAbs v := by
    unfold units
    split
    · rw [Int.natAbs_neg, Int.natAbs_natCast]
    · rw [Int.natAbs_natCast]
  have hf := (v.extractLsb' 0 23).isLt
  rw [habs] at hlo hhi
  unfold unitsAbs at hlo hhi
  unfold NormalF32
  dsimp only at hlo hhi
  generalize (v.extractLsb' 23 8).toNat = e at *
  generalize (v.extractLsb' 0 23).toNat = f at *
  by_cases he : e = 0
  · rw [if_pos he] at hlo
    omega
  · refine ⟨by omega, ?_⟩
    rw [if_neg he] at hhi
    by_contra hc
    have h1 : 2 ^ 250 ≤ 2 ^ (e - 1) := Nat.pow_le_pow_right (by decide) (by omega)
    have h2 : 1 * 2 ^ (e - 1) ≤ (2 ^ 23 + f) * 2 ^ (e - 1) := Nat.mul_le_mul_right _ (by omega)
    omega

/-! ### Evaluating the rounding on many numbers -/

/-- `f n`, with `n` evaluated to a numeral first. -/
def forced {α : Type} (n : Nat) (f : Nat → α) : α :=
  match n with
  | 0 => f 0
  | m + 1 => f (m + 1)

theorem forced_eq {α : Type} (n : Nat) (f : Nat → α) : forced n f = f n := by
  cases n <;> rfl

/-- `roundUnits` below 2^64 in the form the kernel evaluates quickly. -/
def roundUnitsQuick (u : Nat) : Nat :=
  forced u fun u => forced (2 ^ (log2Halving 6 u - 23)) fun c => roundHalfEven u c * c

theorem roundUnitsQuick_eq {u : Nat} (h : u < 2 ^ 2 ^ 6) : roundUnitsQuick u = roundUnits u := by
  simp only [roundUnitsQuick, forced_eq, log2Halving_eq 6 h, roundUnits]

/-- The value of a reading, its sign and its magnitude handed to `k`. -/
def valueQuick {α : Type} (kind : MeasurementKind) (raw : Nat) (k : Bool → Nat → α) : α :=
  forced (roundUnitsQuick (mulSmall kind * raw)) fun t =>
    if t < subSmall kind then forced (roundUnitsQuick (subSmall kind - t)) (k true)
    else forced (roundUnitsQuick (t - subSmall kind)) (k false)

/-- `valueQuick` is the model's own value. -/
theorem valueQuick_spec (kind : MeasurementKind) (raw : BitVec 16) :
    ∃ (negative : Bool) (magnitude : Nat),
      (∀ {α : Type} (k : Bool → Nat → α), valueQuick kind raw.toNat k = k negative magnitude) ∧
      units (physicalValue kind raw) =
        (if negative then - (magnitude : Int) else (magnitude : Int)) * (2 ^ unitShift kind : Nat) := by
  have hlt := raw.isLt
  have hb : mulSmall kind * raw.toNat < 2 ^ 40 := by
    have : mulSmall kind ≤ 5757993 := by cases kind <;> decide
    calc mulSmall kind * raw.toNat ≤ 5757993 * 2 ^ 16 := Nat.mul_le_mul this hlt.le
      _ < 2 ^ 40 := by decide
  have hq : roundUnitsQuick (mulSmall kind * raw.toNat) = roundUnits (mulSmall kind * raw.toNat) :=
    roundUnitsQuick_eq (hb.trans (by decide))
  have hr : roundUnits (mulSmall kind * raw.toNat) ≤ 2 ^ 24 * 2 ^ 17 := by
    by_cases h0 : mulSmall kind * raw.toNat = 0
    · rw [h0]
      decide
    · have hl : Nat.log2 (mulSmall kind * raw.toNat) < 40 := (Nat.log2_lt h0).2 hb
      exact Nat.mul_le_mul (roundUnits_significand h0).1 (Nat.pow_le_pow_right (by decide) (by omega))
  have hs : subSmall kind ≤ 2 ^ 40 := by cases kind <;> decide
  by_cases hneg : roundUnits (mulSmall kind * raw.toNat) < subSmall kind
  · refine ⟨true, roundUnits (subSmall kind - roundUnits (mulSmall kind * raw.toNat)), fun k => ?_, ?_⟩
    · simp only [valueQuick, forced_eq, hq, if_pos hneg]
      rw [roundUnitsQuick_eq (by omega)]
    · rw [units_physicalValue, roundUnitsInt, if_pos (by omega), if_pos rfl]
      congr 4
      omega
  · refine ⟨false, roundUnits (roundUnits (mulSmall kind * raw.toNat) - subSmall kind), fun k => ?_, ?_⟩
    · simp only [valueQuick, forced_eq, hq, if_neg hneg]
      rw [roundUnitsQuick_eq (by omega)]
    · rw [units_physicalValue, roundUnitsInt, if_neg (by omega)]
      congr 3
      omega

/-- A test of the 2^`depth` naturals that begin with the bits of `start`, by halving: the form in which a check over many
numbers is evaluated. -/
def allBelow (test : Nat → Bool) (depth start : Nat) : Bool :=
  match depth with
  | 0 => test start
  | d + 1 => allBelow test d (2 * start) && allBelow test d (2 * start + 1)

theorem allBelow_spec {test : Nat → Bool} {depth start : Nat} (h : allBelow test depth start = true) (n : Nat)
    (hlo : start * 2 ^ depth ≤ n) (hhi : n < (start + 1) * 2 ^ depth) : test n = true := by
  induction depth generalizing start with
  | zero =>
    simp at hlo hhi
    obtain rfl : start = n := by omega
    exact h
  | succ d ih =>
    simp only [allBelow, Bool.and_eq_true] at h
    rw [Nat.pow_succ] at hlo hhi
    by_cases hn : n < (2 * start + 1) * 2 ^ d
    · refine ih h.1 ?_ hn
      calc 2 * start * 2 ^ d = start * (2 ^ d * 2) := by ring
        _ ≤ n := hlo
    · refine ih h.2 (Nat.le_of_not_lt hn) ?_
      calc n < (start + 1) * (2 ^ d * 2) := hhi
        _ = (2 * start + 1 + 1) * 2 ^ d := by ring

end Sys2Proof.Machine
end

