-- ==== Sys2Proof/Laws/Frame.lean ====
section
/-!
SUPPORT. The small facts about frames that the larger statements are assembled from.
-/

namespace Sys2Proof.Machine

/-- Eight bytes are their eight components. -/
theorem vector8_eta {α : Type} (v : Vector α 8) : v = #v[v[0], v[1], v[2], v[3], v[4], v[5], v[6], v[7]] := by
  ext i hi
  rcases i with _ | _ | _ | _ | _ | _ | _ | _ | i
  all_goals first | rfl | omega

theorem vector8_toList {α : Type} (v : Vector α 8) : v.toList = [v[0], v[1], v[2], v[3], v[4], v[5], v[6], v[7]] := by
  rw [vector8_eta v]
  rfl

theorem frameBody_length (ft : Byte) (dst : Vector Byte 8) (payload : List Byte) :
    (frameBody ft dst payload).length = 11 + payload.length := by
  simp [frameBody]
  omega

/-- A frame has 15 + n bytes (R160, R165). -/
theorem buildFrame_length (ft : Byte) (dst : Vector Byte 8) (payload : List Byte) :
    (buildFrame ft dst payload).length = 15 + payload.length := by
  simp [buildFrame, frameBody_length]
  omega

/-- The high byte of the length field is 0 for every length below 256 (R163). -/
theorem lenHi_eq_zero {len : Nat} (h : len < 256) : lenHi len = 0x00 := by
  have : len >>> 8 = 0 := by
    rw [Nat.shiftRight_eq_div_pow]
    omega
  simp [lenHi, this]

/-- The low byte of the length field is the length modulo 256 (R163). -/
theorem lenLo_eq (len : Nat) : lenLo len = BitVec.ofNat 8 len := by
  apply BitVec.eq_of_toNat_eq
  have : len &&& 0xFF = len % 2 ^ 8 := Nat.and_two_pow_sub_one_eq_mod len 8
  simp [lenLo, this]

/-- "`CHECKSUM` is the bitwise complement of the 8-bit sum" (R164). -/
theorem frameChecksum_eq_not (body : List Byte) : frameChecksum body = ~~~ byteSum body := by
  simp only [frameChecksum]
  bv_omega

theorem byteSum_append (a b : List Byte) : byteSum (a ++ b) = byteSum a + byteSum b := by
  simp [byteSum, BitVec.ofNat_add]

@[simp] theorem byteSum_nil : byteSum [] = 0 := rfl

theorem byteSum_singleton (b : Byte) : byteSum [b] = b := by
  simp [byteSum]

/-- The held frame is the list whose bytes the cells below `flen` hold. -/
theorem heldFrame_of_read {s : State} {f : List Byte} (hl : s.flen.toNat = f.length)
    (hr : ∀ a, a < f.length → s.fbuf.read a = f[a]?) : heldFrame s = f := by
  have h : (List.range f.length).filterMap s.fbuf.read = (List.range f.length).map (fun a => (f[a]?).getD 0) := by
    rw [List.filterMap_eq_map_iff_forall_eq_some.2]
    intro a ha
    have ha' := List.mem_range.1 ha
    rw [hr a ha', List.getElem?_eq_getElem ha', Option.getD_some]
  unfold heldFrame
  rw [hl, h]
  apply List.ext_getElem
  · simp
  · intro i h1 h2
    simp [h2]

/-- A frame that has been installed is the held frame. -/
theorem heldFrame_holdFrame {frame : List Byte} (h : frame.length ≤ 23) (s : State) :
    heldFrame (holdFrame frame s) = frame :=
  heldFrame_of_read (by simp; omega) (fun a _ => holdFrame_read frame s a)

/-- A `filterMap` that drops nothing finds a value everywhere. -/
theorem isSome_of_filterMap_length {α β : Type} (f : α → Option β) (l : List α) (h : (l.filterMap f).length = l.length) :
    ∀ x ∈ l, (f x).isSome = true := by
  induction l with
  | nil => simp
  | cons y l ih =>
    have hle := List.length_filterMap_le f l
    cases hy : f y with
    | none =>
      rw [List.filterMap_cons_none hy, List.length_cons] at h
      omega
    | some b =>
      rw [List.filterMap_cons_some hy, List.length_cons, List.length_cons] at h
      intro x hx
      rcases List.mem_cons.1 hx with rfl | hx
      · rw [hy]; rfl
      · exact ih (by omega) x hx

/-- In a state that meets the invariant and holds a frame, each cell below `flen` holds the frame's byte. -/
theorem Inv.read_held {s : State} (hi : Inv s) (hv : s.fvalid = true) {a : Nat} (ha : a < s.flen.toNat) :
    ∃ b, s.fbuf.read a = some b ∧ (heldFrame s)[a]? = some b := by
  have hlen := (hi.frame hv).2.1
  unfold heldFrame at hlen
  have hall := isSome_of_filterMap_length s.fbuf.read (List.range s.flen.toNat) (hlen.trans List.length_range.symm)
  have hmap : heldFrame s = (List.range s.flen.toNat).map (fun x => (s.fbuf.read x).getD 0) := by
    unfold heldFrame
    rw [List.filterMap_eq_map_iff_forall_eq_some.2]
    intro x hx
    obtain ⟨b, hb⟩ := Option.isSome_iff_exists.1 (hall x hx)
    simp [hb]
  obtain ⟨b, hb⟩ := Option.isSome_iff_exists.1 (hall a (List.mem_range.2 ha))
  exact ⟨b, hb, by simp [hmap, ha, hb]⟩

end Sys2Proof.Machine
end

