-- ==== Sys2Proof/Laws/Exec.lean ====
section
/-!
SUPPORT. What each meaning can do, said once: one lemma per meaning with a case in it, and the two facts that hold of all.
-/

namespace Sys2Proof.Machine

/-- `DEC.DECODE` answers a value or `WRONG_KIND`, and touches nothing. -/
theorem execDecDecode_cases (kind : MeasurementKind) (msb lsb : Byte) (s : State) :
    (statusBit lsb = expectedFor kind ∧ execDecDecode kind msb lsb s =
      .next (answered (0x00 :: (bytes16 (raw16 msb lsb) ++ bytes32 (physicalValue kind (raw16 msb lsb)))) s)) ∨
    (statusBit lsb ≠ expectedFor kind ∧ execDecDecode kind msb lsb s = .next (answered [0x01] s)) := by
  unfold execDecDecode
  split
  · exact .inl ⟨‹_›, rfl⟩
  · exact .inr ⟨‹_›, rfl⟩

/-- `FRM.BUILD` installs the frame or drops what was held. -/
theorem execFrmBuild_cases (ft : Byte) (dst : Vector Byte 8) (payload : List Byte) (s : State) :
    (payload.length ≤ 8 ∧ execFrmBuild ft dst payload s =
      .next (answered [0x00, offsetByte (BitVec.ofNat 5 (buildFrame ft dst payload).length)]
        (holdFrame (buildFrame ft dst payload) s))) ∨
    (8 < payload.length ∧ execFrmBuild ft dst payload s =
      .next (answered [0x02] (dropFrame { s with ptl := true }))) := by
  unfold execFrmBuild
  split
  · exact .inr ⟨‹_›, rfl⟩
  · exact .inl ⟨Nat.le_of_not_lt ‹_›, rfl⟩

/-- `FRM.LEN` answers the length or `NO_FRAME`. -/
theorem execFrmLen_cases (s : State) :
    (s.fvalid = true ∧ execFrmLen s = .next (answered [0x00, offsetByte s.flen] s)) ∨
    (s.fvalid = false ∧ execFrmLen s = .next (answered [0x03] s)) := by
  unfold execFrmLen
  cases h : s.fvalid
  · exact .inr ⟨rfl, rfl⟩
  · exact .inl ⟨rfl, rfl⟩

/-- `FRM.REWIND` moves the read position to 0 or answers `NO_FRAME`. -/
theorem execFrmRewind_cases (s : State) :
    (s.fvalid = true ∧ execFrmRewind s = .next (answered [0x00] { s with rptr := 0 })) ∨
    (s.fvalid = false ∧ execFrmRewind s = .next (answered [0x03] s)) := by
  unfold execFrmRewind
  cases h : s.fvalid
  · exact .inr ⟨rfl, rfl⟩
  · exact .inl ⟨rfl, rfl⟩

/-- `FRM.NEXT`: no frame; the end of the frame; a byte; or, where the cell holds none, a stop. -/
theorem execFrmNext_cases (s : State) :
    (s.fvalid = false ∧ execFrmNext s = .next (answered [0x03] s)) ∨
    (s.fvalid = true ∧ s.rptr = s.flen ∧ execFrmNext s = .next (answered [0x04] s)) ∨
    (s.fvalid = true ∧ s.rptr ≠ s.flen ∧ ∃ b, memRead s.rptr.toNat s = .ok b ∧
      execFrmNext s = .next (answered [0x00, b] { s with rptr := s.rptr + 1 })) ∨
    (s.fvalid = true ∧ s.rptr ≠ s.flen ∧ ∃ f, memRead s.rptr.toNat s = .error f ∧ execFrmNext s = .fault f) := by
  unfold execFrmNext
  cases h : s.fvalid
  · exact .inl ⟨rfl, rfl⟩
  · refine .inr ?_
    by_cases hr : s.rptr = s.flen
    · exact .inl ⟨rfl, hr, by simp [hr]⟩
    · refine .inr ?_
      cases hm : memRead s.rptr.toNat s with
      | ok b => exact .inl ⟨rfl, hr, b, rfl, by simp [hr]⟩
      | error f => exact .inr ⟨rfl, hr, f, rfl, by simp [hr]⟩

/-- No meaning looks at or changes the moves the host has yet to make. -/
theorem exec_moves {i : Instr} {s t : State} (h : exec i s = .next t) : t.moves = s.moves := by
  cases i with
  | sysStatus => cases h; rfl
  | crcInit => cases h; rfl
  | crcUpdate b => cases h; rfl
  | crcRead => cases h; rfl
  | crcVerify e => cases h; rfl
  | decDecode kind msb lsb =>
    rcases execDecDecode_cases kind msb lsb s with ⟨_, e⟩ | ⟨_, e⟩ <;> (rw [exec, e] at h; cases h; rfl)
  | frmBuild ft dst payload =>
    rcases execFrmBuild_cases ft dst payload s with ⟨_, e⟩ | ⟨_, e⟩ <;> (rw [exec, e] at h; cases h; rfl)
  | frmLen => rcases execFrmLen_cases s with ⟨_, e⟩ | ⟨_, e⟩ <;> (rw [exec, e] at h; cases h; rfl)
  | frmNext =>
    rcases execFrmNext_cases s with ⟨_, e⟩ | ⟨_, _, e⟩ | ⟨_, _, _, _, e⟩ | ⟨_, _, _, _, e⟩ <;>
      (rw [exec, e] at h; cases h; try rfl)
  | frmRewind => rcases execFrmRewind_cases s with ⟨_, e⟩ | ⟨_, e⟩ <;> (rw [exec, e] at h; cases h; rfl)

end Sys2Proof.Machine
end

