-- ==== Sys2Proof/Laws/PerInstr.lean ====
section
/-!
SUPPORT. Statements about every instruction as a piece of syntax, one lemma per constructor: its packet is a legal command by the
opcode table's own test (spec/30_encoding.md R85).
-/

namespace Sys2Proof.Laws

/-- The packet of an instruction selects a row of the opcode table. -/
def EncodeLegal.Statement (i : Instr) : Prop :=
  WellFormed.packet (encode i) = true

theorem EncodeLegal.sysStatus : EncodeLegal.Statement .sysStatus := rfl

theorem EncodeLegal.crcInit : EncodeLegal.Statement .crcInit := rfl

theorem EncodeLegal.crcUpdate (b : Byte) : EncodeLegal.Statement (.crcUpdate b) := by
  simp [EncodeLegal.Statement, WellFormed.packet, WellFormed.rows, WellFormed.Row.selectedBy, WellFormed.LengthRule.admits, encode]

theorem EncodeLegal.crcRead : EncodeLegal.Statement .crcRead := rfl

theorem EncodeLegal.crcVerify (e : Byte) : EncodeLegal.Statement (.crcVerify e) := by
  simp [EncodeLegal.Statement, WellFormed.packet, WellFormed.rows, WellFormed.Row.selectedBy, WellFormed.LengthRule.admits, encode]

theorem EncodeLegal.decDecode (kind : MeasurementKind) (msb lsb : Byte) :
    EncodeLegal.Statement (.decDecode kind msb lsb) := by
  cases kind <;>
    simp [EncodeLegal.Statement, WellFormed.packet, WellFormed.rows, WellFormed.Row.selectedBy, WellFormed.LengthRule.admits,
      encode, byteOfKind]

theorem EncodeLegal.frmBuild (ft : Byte) (dst : Vector Byte 8) (payload : List Byte) :
    EncodeLegal.Statement (.frmBuild ft dst payload) := by
  simp [EncodeLegal.Statement, WellFormed.packet, WellFormed.rows, WellFormed.Row.selectedBy, WellFormed.LengthRule.admits,
    encode]

theorem EncodeLegal.frmLen : EncodeLegal.Statement .frmLen := rfl

theorem EncodeLegal.frmNext : EncodeLegal.Statement .frmNext := rfl

theorem EncodeLegal.frmRewind : EncodeLegal.Statement .frmRewind := rfl

end Sys2Proof.Laws
end

