-- ==== Sys2Proof/Laws/Step.lean ====
section
/-!
SUPPORT. What a step does with each move of the host, and how runs compose.
-/

namespace Sys2Proof.Machine

/-- A step on a command serves that command with the move taken off the list. -/
theorem step_command {s : State} {cmd : Packet} {rest : List HostMove} (h : s.moves = .command cmd :: rest) :
    step s = serveCommand cmd { s with moves := rest } := by
  simp [step, h, serveMove]

/-- A step on a reset applies it. -/
theorem step_reset {s : State} {abandoned : Option Packet} {rest : List HostMove}
    (h : s.moves = .reset abandoned :: rest) : step s = .next (applyReset { s with moves := rest }) := by
  simp [step, h, serveMove]

theorem serveCommand_of_decode {cmd : Packet} {i : Instr} (h : decode cmd = .ok i) (s : State) :
    serveCommand cmd s = exec i s := by
  simp [serveCommand, h]

theorem serveCommand_of_illegal {cmd : Packet} {e : Illegal} (h : decode cmd = .error e) (s : State) :
    serveCommand cmd s = .next (answered [0xFF] s) := by
  simp [serveCommand, h]

/-- Everything a step can be: idle, an instruction, an illegal packet, or a reset. -/
theorem step_cases (s : State) :
    (s.moves = [] ∧ step s = .next s) ∨
    (∃ cmd rest i, s.moves = .command cmd :: rest ∧ decode cmd = .ok i ∧ step s = exec i { s with moves := rest }) ∨
    (∃ cmd rest e, s.moves = .command cmd :: rest ∧ decode cmd = .error e ∧
      step s = .next (answered [0xFF] { s with moves := rest })) ∨
    (∃ abandoned rest, s.moves = .reset abandoned :: rest ∧ step s = .next (applyReset { s with moves := rest })) := by
  cases hm : s.moves with
  | nil => exact .inl ⟨rfl, by simp [step, hm, idle]⟩
  | cons move rest =>
    refine .inr ?_
    cases move with
    | command cmd =>
      cases hd : decode cmd with
      | ok i => exact .inl ⟨cmd, rest, i, rfl, hd, by rw [step_command hm, serveCommand_of_decode hd]⟩
      | error e => exact .inr (.inl ⟨cmd, rest, e, rfl, hd, by rw [step_command hm, serveCommand_of_illegal hd]⟩)
    | reset abandoned => exact .inr (.inr ⟨abandoned, rest, rfl, step_reset hm⟩)

theorem run_zero (s : State) : run 0 s = .next s := rfl

theorem run_succ_of_next {k : Nat} {s t : State} (h : step s = .next t) : run (k + 1) s = run k t := by
  simp [run, h]

/-- A run of `j + k` steps is a run of `j` and then one of `k`. -/
theorem run_add_of_next {j k : Nat} {s t : State} (h : run j s = .next t) : run (j + k) s = run k t := by
  induction j generalizing s with
  | zero =>
    cases h
    rw [Nat.zero_add]
  | succ j ih =>
    rw [Nat.succ_add]
    simp only [run] at h ⊢
    split at h
    · exact ih h
    · cases h
    · cases h

/-- `run` is the host's own run of the machine. -/
theorem run_eq_core_run (k : Nat) (s : State) : run k s = Host.Core.run Sys2Proof.core k s := by
  induction k generalizing s with
  | zero => rfl
  | succ k ih =>
    have hs : Sys2Proof.core.step s = step s := rfl
    cases h : step s with
    | next t => (simp only [run, Host.Core.run, hs, h, ih]; rfl)
    | fault f => (simp only [run, Host.Core.run, hs, h]; rfl)
    | refused r => (simp only [run, Host.Core.run, hs, h]; rfl)

end Sys2Proof.Machine
end

