-- ==== Sys2Proof/Tests/Slice0.lean ====
section
/-!
SUPPORT. Tests on fixed values, and a witness for the hypotheses of each statement. Expected values come from
spec/95_test_vectors.md (vectors S1 to S10, E1 to E28, K1 to K35, V1 to V30, F1 to F13, A1 to A8, T1 to T8) or from the rule
named; none is the model's own answer.
-/

namespace Sys2Proof.Machine.Tests

/-! ### Helpers -/

/-- The state after an outcome, if there is one. -/
def stateOf (o : Host.Outcome State Fault Refusal) : Option State :=
  match o with
  | .next t => some t
  | .fault _ => none
  | .refused _ => none

theorem stateOf_eq {o : Host.Outcome State Fault Refusal} {t : State} (h : stateOf o = some t) : o = .next t := by
  cases o with
  | next u =>
    cases h
    rfl
  | fault f => cases h
  | refused r => cases h

/-- The last response after an outcome. -/
def responseOf (o : Host.Outcome State Fault Refusal) : Option Packet :=
  (stateOf o).bind fun t => t.responses.getLast?

/-- The destination `D0` of the vectors. -/
def d0 : Vector Byte 8 := #v[0x00, 0x13, 0xA2, 0x00, 0x40, 0x64, 0x03, 0x75]

/-- The reset state with a checksum in progress. -/
def busy : State := { State.reset with crc := 0x7C }

/-- A block that holds the frame of vector F2, five bytes of it read, after an earlier failed build. -/
def holding : State :=
  { holdFrame (buildFrame 0x00 d0 [0x4E, 0x85, 0x68, 0x3A]) busy with rptr := 5, ptl := true }

/-- `holding` with every byte read. -/
def readOut : State := { holding with rptr := 19 }

/-- `holding`, asked to run one packet. -/
def asked (cmd : Packet) : State := presentCommand cmd holding

theorem inv_reset : Inv State.reset where
  rptr_le := by decide
  flen_le := by decide
  no_frame := by decide
  frame := by decide
  memory := by decide

theorem inv_holding : Inv holding where
  rptr_le := by decide
  flen_le := by decide
  no_frame := by decide
  frame := by decide
  memory := by decide

theorem inv_readOut : Inv readOut where
  rptr_le := by decide
  flen_le := by decide
  no_frame := by decide
  frame := by decide
  memory := by decide

theorem inv_asked (cmd : Packet) : Inv (asked cmd) where
  rptr_le := inv_holding.rptr_le
  flen_le := inv_holding.flen_le
  no_frame := inv_holding.no_frame
  frame := inv_holding.frame
  memory := inv_holding.memory

/-! ### Well-formed and ill-formed packets (R79, R85; E1 to E28) -/

theorem smoke_empty_packet_refused : WellFormed.packet [] = false := by decide
theorem smoke_unassigned_opcode_refused :
    ([[0x00], [0x02], [0x14], [0x21], [0x34], [0x7E], [0xFF]] : List Packet).any WellFormed.packet = false := by decide
theorem smoke_too_short_refused :
    ([[0x11], [0x13], [0x20, 0x00, 0x00], [0x30], [0x30, 0x00, 0x00, 0x13, 0xA2, 0x00, 0x40, 0x64, 0x03]] : List Packet).any
      WellFormed.packet = false := by decide
theorem smoke_too_long_refused :
    ([[0x01, 0x00], [0x10, 0x00], [0x11, 0xFF, 0x00], [0x20, 0x00, 0x00, 0x00, 0x00], [0x31, 0x00], [0x32, 0x00],
      [0x33, 0x00]] : List Packet).any WellFormed.packet = false := by decide
theorem smoke_kind_out_of_range_refused :
    ([[0x20, 0x02, 0x00, 0x00], [0x20, 0xFF, 0x00, 0x02]] : List Packet).any WellFormed.packet = false := by decide
theorem smoke_legal_packets_accepted :
    ([[0x01], [0x10], [0x11, 0xFF], [0x12], [0x13, 0x00], [0x20, 0x01, 0x00, 0x00],
      [0x30, 0x00, 0x00, 0x13, 0xA2, 0x00, 0x40, 0x64, 0x03, 0x75], [0x31], [0x32], [0x33]] : List Packet).all
      WellFormed.packet = true := by decide

/-! ### Decoding, word by word (R72, R74, R77) -/

theorem test_decode_sysStatus : decode [0b00000001] = .ok .sysStatus := by decide
theorem test_decode_crcInit : decode [0b00010000] = .ok .crcInit := by decide
theorem test_decode_crcUpdate : decode [0b00010001, 0b01101000] = .ok (.crcUpdate 0x68) := by decide
theorem test_decode_crcRead : decode [0b00010010] = .ok .crcRead := by decide
theorem test_decode_crcVerify : decode [0b00010011, 0b01111100] = .ok (.crcVerify 0x7C) := by decide
theorem test_decode_decDecode_temperature :
    decode [0b00100000, 0b00000000, 0b01001110, 0b10000101] = .ok (.decDecode .temperature 0x4E 0x85) := by decide
theorem test_decode_decDecode_humidity :
    decode [0b00100000, 0b00000001, 0b01101000, 0b00111010] = .ok (.decDecode .humidity 0x68 0x3A) := by decide
theorem test_decode_frmBuild :
    decode [0b00110000, 0x10, 0x00, 0x13, 0xA2, 0x00, 0x40, 0x64, 0x03, 0x75, 0x4E, 0x85] =
      .ok (.frmBuild 0x10 d0 [0x4E, 0x85]) := by decide
theorem test_decode_frmLen : decode [0b00110001] = .ok .frmLen := by decide
theorem test_decode_frmNext : decode [0b00110010] = .ok .frmNext := by decide
theorem test_decode_frmRewind : decode [0b00110011] = .ok .frmRewind := by decide

theorem test_decode_illegal_names :
    decode [] = .error .emptyPacket ∧ decode [0x14] = .error .unassignedOpcode ∧ decode [0x10, 0x00] = .error .wrongLength ∧
    decode [0x20, 0x02, 0x00] = .error .wrongLength ∧ decode [0x20, 0x02, 0x68, 0x3A] = .error .kindOutOfRange := by decide

/-- The opcode table's own numbers (log 9). -/
theorem test_table_words :
    decodeTableWord 8 0x01 = some .sysStatus ∧ decodeTableWord 16 0x6811 = some (.crcUpdate 0x68) ∧
    decodeTableWord 16 0x2000 = some (.decDecode .temperature 0x00 0x00) ∧
    decodeTableWord 32 0x853A2001 = some (.decDecode .humidity 0x3A 0x85) ∧
    decodeTableWord 8 0x30 = some (.frmBuild 0x00 #v[0x00, 0x00, 0x00, 0x00, 0x00, 0x00, 0x00, 0x00] []) ∧
    decodeTableWord 8 0x33 = some .frmRewind ∧ decodeTableWord 8 0x34 = none := by decide

theorem test_withFetchWord_runs_it :
    responseOf (step (State.reset.withFetchWord 8 0x12)) = some [0x00, 0x00] ∧
    responseOf (step (State.reset.withFetchWord 16 0x0013)) = some [0x00, 0x01] ∧
    responseOf (step (State.reset.withFetchWord 8 0x30)) = some [0x00, 0x0F] := by decide

/-! ### SYS.STATUS (T1, T4) -/

theorem test_sysStatus_after_reset : responseOf (exec .sysStatus State.reset) = some [0x00, 0x00] := by decide
theorem test_sysStatus_frame_after_failure : responseOf (exec .sysStatus holding) = some [0x00, 0x03] := by decide

/-! ### The Checksum Engine (S1, S3, K33 to K35) -/

theorem test_crcInit_discards : (stateOf (exec .crcInit holding)).map State.crc = some 0x00 := by decide
theorem test_crcUpdate_traced_bytes : crc8Update 0x00 0x68 = 0x02 ∧ crc8Update 0x02 0x3A = 0x7C := by decide
theorem test_crcUpdate_of_itself : (stateOf (exec (.crcUpdate 0x7C) busy)).map State.crc = some 0x00 := by decide
theorem test_crcRead : responseOf (exec .crcRead busy) = some [0x00, 0x7C] := by decide
theorem test_crcVerify :
    responseOf (exec (.crcVerify 0x7C) busy) = some [0x00, 0x01] ∧
    responseOf (exec (.crcVerify 0x7D) busy) = some [0x00, 0x00] := by decide

/-- K1, K4, K11, K15, K16, K20. -/
theorem test_crc8_vectors :
    crc8 [] = 0x00 ∧ crc8 [0x01] = 0x31 ∧ crc8 [0x4E, 0x85] = 0x6B ∧ crc8 [0x3A, 0x68] = 0x5E ∧
    crc8 [0x31, 0x32, 0x33, 0x34, 0x35, 0x36, 0x37, 0x38, 0x39] = 0xA2 ∧ crc8 [0x68, 0x3B] = 0x4D := by decide +kernel

/-! ### The Reading Decoder (V1, V2, V4, V20, V27) -/

theorem test_decDecode_humidity :
    responseOf (exec (.decDecode .humidity 0x68 0x3A) State.reset) = some [0x00, 0x68, 0x38, 0x42, 0x33, 0x8D, 0x60] := by
  decide +kernel
theorem test_decDecode_temperature_and_wrongKind :
    responseOf (exec (.decDecode .temperature 0x4E 0x85) State.reset) = some [0x00, 0x4E, 0x84, 0x40, 0xE1, 0x65, 0x50] ∧
    responseOf (exec (.decDecode .temperature 0x68 0x3A) State.reset) = some [0x01] := by
  decide +kernel

/-- Two roundings, not a fused multiply-add and not binary64 rounded once (the table of section 2.3). -/
theorem test_value_is_not_fused :
    physicalValue .temperature 0x6350 = 0x41AA8CC0 ∧ physicalValue .temperature 0x4444 = 0x3C025000 ∧
    physicalValue .temperature 0x1234 = 0xC2096BC9 := by decide +kernel

/-- `t1` and `t2` of V15 and V26. -/
theorem test_value_intermediates :
    scaledReading 0x8000 = 0x3F000000 ∧ scaledProduct .temperature 0x8000 = 0x42AFB852 ∧
    scaledReading 0x7C80 = 0x3EF90000 ∧ scaledProduct .humidity 0x7C80 = 0x42732A00 := by decide +kernel

/-! ### The Frame Encoder (F1, F5, F7, F12, F13, A1 to A8) -/

theorem test_frame_of_the_source :
    buildFrame 0x00 d0 [0xFF, 0x41, 0x42, 0x43, 0x44, 0x45, 0x46, 0xFF] =
      [0x7E, 0x00, 0x13, 0x00, 0x00, 0x00, 0x13, 0xA2, 0x00, 0x40, 0x64, 0x03, 0x75, 0x00, 0xFF, 0x41, 0x42, 0x43, 0x44, 0x45,
       0x46, 0xFF, 0x9B] := by decide
theorem test_frame_checksums :
    (buildFrame 0xFF (Vector.replicate 8 0xFF) (List.replicate 8 0xFF)).getLast? = some 0x10 ∧
    (buildFrame 0x01 (Vector.replicate 8 0x00) [0xFE]).getLast? = some 0x00 ∧
    (buildFrame 0x00 (Vector.replicate 8 0x00) [0x81]).getLast? = some 0x7E ∧
    (buildFrame 0x00 (Vector.replicate 8 0x00) []).getLast? = some 0xFF := by decide

/-- A7: a build while F2 is partly read replaces it. -/
theorem test_frmBuild_replaces :
    (stateOf (exec (.frmBuild 0x00 d0 []) holding)).map (fun t => (t.flen, t.rptr, t.fvalid, t.ptl, t.fbuf.read 14)) =
      some (15, 0, true, true, some 0x2E) := by decide
/-- A8, F13: a failed build loses the held frame. -/
theorem test_frmBuild_too_large :
    responseOf (exec (.frmBuild 0x00 d0 [1, 2, 3, 4, 5, 6, 7, 8, 9]) holding) = some [0x02] ∧
    (stateOf (exec (.frmBuild 0x00 d0 [1, 2, 3, 4, 5, 6, 7, 8, 9]) holding)).map (fun t => (t.flen, t.rptr, t.fvalid, t.ptl)) =
      some (0, 0, false, true) := by decide
theorem test_frmLen : responseOf (exec .frmLen holding) = some [0x00, 0x13] ∧ responseOf (exec .frmLen busy) = some [0x03] := by
  decide
theorem test_frmNext :
    (stateOf (exec .frmNext holding)).map (fun t => (t.rptr, t.responses)) = some (6, [[0x00, 0x00]]) ∧
    responseOf (exec .frmNext { holding with rptr := 18 }) = some [0x00, 0xB9] := by decide
theorem test_frmNext_end_and_none :
    responseOf (exec .frmNext readOut) = some [0x04] ∧ responseOf (exec .frmNext State.reset) = some [0x03] := by decide
theorem test_frmRewind :
    (stateOf (exec .frmRewind readOut)).map (fun t => (t.rptr, t.responses)) = some (0, [[0x00]]) ∧
    responseOf (exec .frmRewind busy) = some [0x03] := by decide

/-! ### Illegal packets and reset (E17, T6) -/

theorem test_illegal_changes_nothing :
    stateOf (step (asked [0x20, 0x02, 0x68, 0x3A])) = some (answered [0xFF] holding) := by decide
theorem test_reset_clears_everything :
    stateOf (step (withMoves [.reset none] holding)) = some State.reset := by decide

/-! ### Witnesses: a concrete case for the hypotheses of each statement -/

theorem witness_IllegalPacketsChangeNothing :
    (IllegalPacket [] ∧ IllegalPacket [0x00] ∧ IllegalPacket [0x34] ∧ IllegalPacket [0xFF] ∧ IllegalPacket [0x01, 0x00] ∧
      IllegalPacket [0x11] ∧ IllegalPacket [0x13, 0x00, 0x00] ∧ IllegalPacket [0x20, 0x00, 0x00] ∧
      IllegalPacket [0x20, 0x02, 0x00, 0x00] ∧ IllegalPacket [0x30, 0x00, 0x00, 0x13, 0xA2, 0x00, 0x40, 0x64, 0x03]) ∧
    (asked [0x34]).moves = .command [0x34] :: [] ∧
    (¬ IllegalPacket [0x01] ∧ ¬ IllegalPacket [0x20, 0x01, 0x00, 0x00] ∧
      ¬ IllegalPacket [0x30, 0x00, 0x00, 0x13, 0xA2, 0x00, 0x40, 0x64, 0x03, 0x75]) := by
  refine ⟨?_, by decide, ?_⟩ <;> simp [IllegalPacket]

theorem witness_ErrorPriority :
    (∀ op ∈ ([0x00, 0x02, 0x14, 0x34, 0xFF] : List Byte),
      op ∉ ([0x01, 0x10, 0x11, 0x12, 0x13, 0x20, 0x30, 0x31, 0x32, 0x33] : List Byte)) ∧
    ([0x02, 0x00] : List Byte).length ≠ 3 ∧ (0x01 : Byte) < 0x02 ∧ (List.replicate 8 (0x00 : Byte)).length < 9 ∧
    (List.replicate 18 (0x00 : Byte)).length = 18 ∧
    (asked (0x30 :: List.replicate 18 0x00)).moves = .command (0x30 :: List.replicate 18 0x00) :: [] ∧
    State.reset.fvalid = false ∧ State.reset.rptr = State.reset.flen := by decide

theorem witness_StepRunsTheDecodedInstruction :
    (asked [0x32]).moves = .command [0x32] :: [] ∧ decode [0x32] = .ok .frmNext := by decide

theorem witness_IdleStepChangesNothing : holding.moves = [] := by decide

theorem witness_ResetGivesTheResetValues :
    (withMoves [.reset none] holding).moves = .reset none :: [] ∧
    (withMoves [.reset (some [0x32]), .command [0x12]] holding).moves = .reset (some [0x32]) :: [.command [0x12]] := by decide

theorem witness_OneResponsePerCommand :
    (asked [0x31]).moves = .command [0x31] :: [] ∧ step (asked [0x31]) = .next (answered [0x00, 0x13] holding) ∧
    (asked [0x20, 0x00, 0x68, 0x3A]).moves = .command [0x20, 0x00, 0x68, 0x3A] :: [] ∧
    step (asked [0x20, 0x00, 0x68, 0x3A]) = .next (answered [0x01] holding) :=
  ⟨by decide, stateOf_eq (by decide), by decide, stateOf_eq (by decide)⟩

/-- A status that changes nothing, and the one that changes the Frame Encoder's state. -/
theorem witness_ErrorsChangeOnlyWhatIsListed :
    step (asked [0x20, 0x00, 0x68, 0x3A]) = .next (answered [0x01] holding) ∧
    (answered [0x01] holding).responses = (asked [0x20, 0x00, 0x68, 0x3A]).responses ++ [0x01 :: []] ∧
    (0x01 : Byte) ≠ 0x00 ∧ (0x01 : Byte) ≠ 0x02 ∧
    step (asked (0x30 :: List.replicate 18 0x00)) =
      .next (answered [0x02] { holding with fvalid := false, flen := 0, rptr := 0, fbuf := [] }) ∧
    (answered [0x02] { holding with fvalid := false, flen := 0, rptr := 0, fbuf := [] }).responses =
      (asked (0x30 :: List.replicate 18 0x00)).responses ++ [0x02 :: []] :=
  ⟨stateOf_eq (by decide), by decide, by decide, by decide, stateOf_eq (by decide), by decide⟩

theorem witness_EveryStepKeepsTheInvariant :
    Inv (asked [0x31]) ∧ step (asked [0x31]) = .next (answered [0x00, 0x13] holding) ∧ (asked [0x31]).ptl = true ∧
    step (withMoves [.reset none] holding) = .next State.reset :=
  ⟨inv_asked _, stateOf_eq (by decide), by decide, stateOf_eq (by decide)⟩

theorem witness_InvariantStatesNeverStop : Inv (asked [0x32]) ∧ Inv holding ∧ Inv State.reset :=
  ⟨inv_asked _, inv_holding, inv_reset⟩

/-- Both stops of `FRM.NEXT` exist, in states no run reaches. -/
theorem witness_OnlyFrmNextCanStop :
    exec .frmNext { holding with fbuf := [] } = .fault .cellHoldsNoValue ∧
    exec .frmNext { holding with rptr := 23 } = .fault .noSuchCell := by
  constructor <;> rfl

theorem witness_PtlIsSticky :
    exec (.frmBuild 0x00 d0 (List.replicate 9 0x00)) State.reset = .next (answered [0x02] { State.reset with ptl := true }) ∧
    exec .sysStatus holding = .next (answered [0x00, 0x03] holding) ∧
    exec .crcInit State.reset = .next (answered [0x00] State.reset) :=
  ⟨stateOf_eq (by decide), stateOf_eq (by decide), stateOf_eq (by decide)⟩

theorem witness_OnlyBuildWritesTheBuffer :
    exec .frmNext holding = .next (answered [0x00, 0x00] { holding with rptr := 6 }) ∧
    ∀ ft dst payload, Instr.frmNext ≠ .frmBuild ft dst payload :=
  ⟨stateOf_eq (by decide), fun _ _ _ h => by cases h⟩

/-- An instruction of each unit runs. -/
theorem witness_UnitsWriteOnlyTheirOwnState :
    (exec .crcInit holding = .next (answered [0x00] { holding with crc := 0x00 }) ∧ unitOf .crcInit ≠ .frame) ∧
    (exec .frmRewind holding = .next (answered [0x00] { holding with rptr := 0 }) ∧ unitOf .frmRewind ≠ .checksum) ∧
    (exec (.decDecode .temperature 0x68 0x3A) holding = .next (answered [0x01] holding) ∧
      unitOf (.decDecode .temperature 0x68 0x3A) ≠ .frame) :=
  ⟨⟨stateOf_eq (by decide), by decide⟩, ⟨stateOf_eq (by decide), by decide⟩, ⟨stateOf_eq (by decide), by decide⟩⟩

/-- A command of each unit, and a second state that shares what that unit reads. -/
theorem witness_UnitsReadOnlyTheirOwnState :
    (exec .crcRead holding = .next (answered [0x00, 0x7C] holding) ∧ busy.responses = holding.responses ∧
      unitOf .crcRead = .checksum ∧ busy.crc = holding.crc) ∧
    (exec .frmLen holding = .next (answered [0x00, 0x13] holding) ∧ unitOf .frmLen = .frame ∧
      SameFrameUnit holding { holding with crc := 0x00 }) ∧
    (exec .sysStatus holding = .next (answered [0x00, 0x03] holding) ∧ unitOf .sysStatus = .system) ∧
    (exec (.decDecode .temperature 0x68 0x3A) holding = .next (answered [0x01] holding) ∧
      unitOf (.decDecode .temperature 0x68 0x3A) = .reading) :=
  ⟨⟨stateOf_eq (by decide), by decide, by decide, by decide⟩,
   ⟨stateOf_eq (by decide), by decide, rfl, rfl, rfl, rfl, rfl⟩,
   ⟨stateOf_eq (by decide), by decide⟩, ⟨stateOf_eq (by decide), by decide⟩⟩

/-- `asked [0x32]` with another content of cell 22, which lies above the held frame. -/
def otherCell : State := { asked [0x32] with fbuf := holding.fbuf ++ [(22, 0xAA)] }

/-- The reset state with a value in cell 0, which no frame held makes unspecified. -/
def otherReset : State := { State.reset with fbuf := [(0, 0x55)] }

theorem inv_otherCell : Inv otherCell where
  rptr_le := by decide
  flen_le := by decide
  no_frame := by decide
  frame := by decide
  memory := by decide

theorem inv_otherReset : Inv otherReset where
  rptr_le := by decide
  flen_le := by decide
  no_frame := by decide
  frame := by decide
  memory := by decide

/-- Two pairs of states that differ in an unspecified cell. -/
theorem witness_UnspecifiedCellsAreUnobservable :
    (Inv (asked [0x32]) ∧ Inv otherCell ∧ SameButUnspecified (asked [0x32]) otherCell ∧
      otherCell.fbuf.read 22 ≠ (asked [0x32]).fbuf.read 22 ∧
      step (asked [0x32]) = .next (answered [0x00, 0x00] { holding with rptr := 6 })) ∧
    (Inv State.reset ∧ Inv otherReset ∧ SameButUnspecified State.reset otherReset ∧
      step State.reset = .next State.reset) :=
  ⟨⟨inv_asked _, inv_otherCell, ⟨rfl, by decide⟩, by decide, stateOf_eq (by decide)⟩,
   inv_reset, inv_otherReset, ⟨rfl, by decide⟩, rfl⟩

theorem witness_ReadingCommandsAreIdempotent :
    Instr.frmLen ∈ [Instr.crcRead, .frmLen, .sysStatus] ∧ (∃ e, Instr.crcVerify 0x7C = .crcVerify e) ∧
    (∃ kind msb lsb, Instr.decDecode .humidity 0x68 0x3A = .decDecode kind msb lsb) :=
  ⟨by decide, ⟨_, rfl⟩, ⟨_, _, _, rfl⟩⟩

theorem witness_CrcUpdateFeedsOneByte : busy.crc = 0x7C ∧ State.reset.crc = 0x00 := by decide

theorem witness_CrcVerifyCompares : busy.crc = 0x7C ∧ busy.crc ≠ 0x7D := by decide

theorem witness_ChecksumIsLinear : ([0x68, 0x3A] : List Byte).length = ([0x4E, 0x85] : List Byte).length := by decide

theorem witness_OneChangedByteIsDetected : (0x3A : Byte) ≠ 0x3B := by decide

theorem witness_ChecksumSequenceComputesCrc8 :
    (withMoves (crcChecksum [0x68, 0x3A] ++ [.command [0x01]]) holding).moves =
      crcChecksum [0x68, 0x3A] ++ [.command [0x01]] := rfl

theorem witness_CheckSequenceVerifies :
    (withMoves (crcCheck [0x4E, 0x85] 0x6B ++ []) holding).moves = crcCheck [0x4E, 0x85] 0x6B ++ [] := rfl

/-- An update, an illegal packet and a command of another unit after `CRC.INIT`. -/
theorem witness_InterleavedCommandsDoNotDisturbChecksum :
    ([0x10] : Packet) ∉ ([[0x11, 0x68], [0x02], [0x33]] : List Packet) ∧
    run 4 (withMoves (issue .crcInit :: ([[0x11, 0x68], [0x02], [0x33]] : List Packet).map HostMove.command ++ []) holding) =
      .next { holding with crc := 0x02, rptr := 0, responses := [[0x00], [0x00], [0xFF], [0x00]] } :=
  ⟨by decide, stateOf_eq (by decide)⟩

/-- Each kind, at the readings 0x0000 and 0xFFFC. -/
theorem witness_DecodeReturnsRawAndValue :
    (0x00 : Byte).getLsbD 1 = false ∧ (0xFD : Byte).getLsbD 1 = false ∧
    (0x02 : Byte).getLsbD 1 = true ∧ (0xFF : Byte).getLsbD 1 = true := by decide

theorem witness_DecodeRejectsTheWrongKind :
    (0x3A : Byte).getLsbD 1 ≠ false ∧ (0x85 : Byte).getLsbD 1 ≠ true ∧ (0x85 : Byte).getLsbD 1 = false ∧
    (0x3A : Byte).getLsbD 1 = true := by decide

/-- A finite result with its finite neighbour, and a tie: 2^24 + 1 lies half way between 2^24 and 2^24 + 2. -/
theorem witness_F32IsNearestEven :
    0 < 100 ∧ FiniteF32 (f32 17572 100) ∧ FiniteF32 0x432FB853 ∧
    FiniteF32 (f32 (2 ^ 24 + 1) 1) ∧ FiniteF32 0x4B800001 ∧
    |units (f32 (2 ^ 24 + 1) 1) - (2 ^ 24 + 1) * 2 ^ 149| = |units 0x4B800001 - (2 ^ 24 + 1) * 2 ^ 149| := by
  unfold FiniteF32
  refine ⟨by decide, by decide +kernel, by decide, by decide +kernel, by decide, by decide +kernel⟩

theorem witness_ValueIsStrictlyMonotonic : (0x0000#14).toNat < (0x3FFF#14).toNat := by decide

/-- The shortest and the longest payload. -/
theorem witness_BuildHoldsTheFrame :
    ([] : List Byte).length ≤ 8 ∧ (List.replicate 8 (0xFF : Byte)).length ≤ 8 := by decide

/-- Nine bytes, and 264 bytes, whose length is 8 modulo 256 (R171). -/
theorem witness_OversizedBuildIsRejected :
    8 < (List.replicate 9 (0x00 : Byte)).length ∧ 8 < (List.replicate 264 (0x00 : Byte)).length :=
  ⟨by decide, by rw [List.length_replicate]; decide⟩

theorem witness_BuiltFramesAreWellFormedAndDistinct :
    ([0x4E, 0x85, 0x68, 0x3A] : List Byte).length ≤ 8 ∧
    stateOf (exec (.frmBuild 0x00 d0 [0x4E, 0x85, 0x68, 0x3A]) busy) =
      some (answered [0x00, 0x13] (holdFrame (buildFrame 0x00 d0 [0x4E, 0x85, 0x68, 0x3A]) busy)) ∧
    buildFrame 0x00 d0 [0x4E] = buildFrame 0x00 d0 [0x4E] := by decide

theorem witness_ReceiverCheckHolds :
    WellFormedFrame [0x7E, 0x00, 0x13, 0x00, 0x00, 0x00, 0x13, 0xA2, 0x00, 0x40, 0x64, 0x03, 0x75, 0x00, 0xFF, 0x41, 0x42, 0x43,
      0x44, 0x45, 0x46, 0xFF, 0x9B] ∧
    WellFormedFrame [0x7E, 0x00, 0x0B, 0x00, 0x00, 0x00, 0x13, 0xA2, 0x00, 0x40, 0x64, 0x03, 0x75, 0x00, 0x2E] := by decide

theorem witness_FrmLenReturnsTheFrameLength : holding.fvalid = true ∧ busy.fvalid = false := by decide

/-- A byte in the middle, the last byte, the end, and no frame. -/
theorem witness_FrmNextReturnsTheNextByte :
    (holding.fvalid = true ∧ holding.rptr ≠ holding.flen ∧ holding.rptr.toNat < 23 ∧
      holding.fbuf.read holding.rptr.toNat = some 0x00) ∧
    (({ holding with rptr := 18 } : State).rptr ≠ holding.flen ∧ holding.fbuf.read 18 = some 0xB9) ∧
    (readOut.fvalid = true ∧ readOut.rptr = readOut.flen) ∧ State.reset.fvalid = false ∧ Inv holding :=
  ⟨by decide, by decide, by decide, by decide, inv_holding⟩

theorem witness_FrmRewindRestartsTheReadOut : readOut.fvalid = true ∧ busy.fvalid = false := by decide

theorem witness_BuildThenReadOutReturnsTheFrame :
    ([] : List Byte).length ≤ 8 ∧
    (withMoves (issue (.frmBuild 0x10 d0 []) :: List.replicate 16 (issue .frmNext) ++ [.reset none]) holding).moves =
      issue (.frmBuild 0x10 d0 []) :: List.replicate (16 + ([] : List Byte).length) (issue .frmNext) ++ [.reset none] :=
  ⟨by decide, rfl⟩

theorem witness_DrainYieldsTheHeldFrame :
    (Inv (withMoves (frmDrain 19 ++ []) holding) ∧ (withMoves (frmDrain 19 ++ []) holding).fvalid = true ∧
      (withMoves (frmDrain 19 ++ []) holding).moves = frmDrain holding.flen.toNat ++ []) ∧
    (Inv (withMoves [issue .frmRewind] State.reset) ∧ (withMoves [issue .frmRewind] State.reset).fvalid = false ∧
      (withMoves [issue .frmRewind] State.reset).moves = issue .frmRewind :: []) :=
  ⟨⟨{ rptr_le := inv_holding.rptr_le, flen_le := inv_holding.flen_le, no_frame := inv_holding.no_frame,
      frame := inv_holding.frame, memory := inv_holding.memory }, by decide, by decide⟩,
   { rptr_le := inv_reset.rptr_le, flen_le := inv_reset.flen_le, no_frame := inv_reset.no_frame,
     frame := inv_reset.frame, memory := inv_reset.memory }, by decide, by decide⟩

end Sys2Proof.Machine.Tests
end

section
/-!
PROOFS. The state of the block (spec/10_state.md): what each instruction can do to the Frame Encoder's items, that the invariant
of R35 holds after reset and is kept by every step, and the reset values of R36.
-/

namespace Sys2Proof.Machine

/-! ### A built frame is well-formed (R172) -/

/-- The checksum of a body in the arithmetic of R172: one subtraction from 0xFF of the reduced sum. -/
theorem frameChecksum_eq_ofNat (body : List Byte) :
    frameChecksum body = BitVec.ofNat 8 (0xFF - (body.map BitVec.toNat).sum % 256) := by
  have hlt : (body.map BitVec.toNat).sum % 256 < 256 := Nat.mod_lt _ (by decide)
  simp only [frameChecksum, byteSum]
  bv_omega

/-- The fixed bytes and the length field of a built frame are at the offsets of R160. -/
theorem buildFrame_getElem? (ft : Byte) (dst : Vector Byte 8) (payload : List Byte) :
    (buildFrame ft dst payload)[0]? = some 0x7E ∧
    (buildFrame ft dst payload)[1]? = some (lenHi (lengthField payload.length)) ∧
    (buildFrame ft dst payload)[2]? = some (lenLo (lengthField payload.length)) ∧
    (buildFrame ft dst payload)[4]? = some 0x00 ∧ (buildFrame ft dst payload)[13]? = some 0x00 := by
  simp only [buildFrame, frameBody, vector8_toList]
  exact ⟨rfl, rfl, rfl, rfl, rfl⟩

/-- The last byte of a built frame is the checksum of the bytes from offset 3 up to it (R164). -/
theorem buildFrame_getLast? (ft : Byte) (dst : Vector Byte 8) (payload : List Byte) :
    (buildFrame ft dst payload).getLast? = some (frameChecksum ((buildFrame ft dst payload).drop 3).dropLast) := by
  have hbody : ((buildFrame ft dst payload).drop 3).dropLast = frameBody ft dst payload := by
    simp [buildFrame]
  rw [hbody]
  simp only [buildFrame, List.getLast?_concat]

/-- Every frame that `FRM.BUILD` can install is well-formed. -/
theorem wellFormedFrame_buildFrame (ft : Byte) (dst : Vector Byte 8) {payload : List Byte} (h : payload.length ≤ 8) :
    WellFormedFrame (buildFrame ft dst payload) := by
  have hlen := buildFrame_length ft dst payload
  have hfield : lengthField payload.length = (buildFrame ft dst payload).length - 4 := by
    simp only [lengthField, Config.lenOverhead]
    omega
  obtain ⟨hstart, hhi, hlo, hid, hopt⟩ := buildFrame_getElem? ft dst payload
  rw [lenHi_eq_zero (by omega)] at hhi
  rw [lenLo_eq, hfield] at hlo
  have hsum := buildFrame_getLast? ft dst payload
  rw [frameChecksum_eq_ofNat] at hsum
  exact ⟨by omega, by omega, hstart, hhi, hlo, hid, hopt, hsum⟩

/-! ### What the invariant depends on, and the states that meet it -/

theorem SameFrameUnit.refl (s : State) : SameFrameUnit s s := ⟨rfl, rfl, rfl, rfl, rfl⟩

theorem SameFrameUnit.ptl_eq {s t : State} (h : SameFrameUnit s t) : t.ptl = s.ptl := by
  obtain ⟨-, -, -, -, hptl⟩ := h
  exact hptl

/-- The invariant speaks of the Frame Encoder's items only. -/
theorem Inv.of_sameFrameUnit {s t : State} (hi : Inv s) (h : SameFrameUnit s t) : Inv t := by
  obtain ⟨hfbuf, hflen, hrptr, hfvalid, -⟩ := h
  have hheld : heldFrame t = heldFrame s := by simp only [heldFrame, hfbuf, hflen]
  exact {
    rptr_le := by rw [hrptr, hflen]; exact hi.rptr_le
    flen_le := by rw [hflen]; exact hi.flen_le
    no_frame := by rw [hfvalid, hflen, hrptr]; exact hi.no_frame
    frame := by rw [hfvalid, hheld, hflen]; exact hi.frame
    memory := by rw [hfbuf]; exact hi.memory }

/-- A block without a frame, its lengths 0 and no cell listed, meets the invariant. -/
theorem inv_of_empty {s : State} (hfbuf : s.fbuf = []) (hflen : s.flen = 0) (hrptr : s.rptr = 0)
    (hfvalid : s.fvalid = false) : Inv s where
  rptr_le := by simp [hrptr]
  flen_le := by simp [hflen]
  no_frame _ := ⟨hflen, hrptr⟩
  frame hv := by simp [hfvalid] at hv
  memory := by rw [hfbuf]; exact Memory.nil_wf

theorem State.reset_inv : Inv State.reset := inv_of_empty rfl rfl rfl rfl

theorem inv_applyReset (s : State) : Inv (applyReset s) := inv_of_empty rfl rfl rfl rfl

theorem inv_dropFrame (s : State) : Inv (dropFrame s) := inv_of_empty rfl rfl rfl rfl

/-- A well-formed frame, once installed, gives (I3), whatever the state was. -/
theorem inv_holdFrame {frame : List Byte} (h : WellFormedFrame frame) (s : State) : Inv (holdFrame frame s) := by
  have ⟨hlo, hhi, _⟩ := h
  have hflen : (holdFrame frame s).flen.toNat = frame.length := by
    rw [holdFrame_flen, BitVec.toNat_ofNat, Nat.mod_eq_of_lt (by omega)]
  exact {
    rptr_le := by simp
    flen_le := by omega
    no_frame := by simp
    frame := fun _ => by
      rw [heldFrame_holdFrame hhi, hflen]
      exact ⟨hlo, rfl, h⟩
    memory := Memory.writeAll_wf frame Memory.nil_wf (by simpa [Config.frameCap] using hhi) }

/-- While a frame is held, the read position may stand anywhere up to its end. -/
theorem Inv.setRptr {s : State} (hi : Inv s) (hv : s.fvalid = true) {r : Offset} (hr : r.toNat ≤ s.flen.toNat) :
    Inv { s with rptr := r } where
  rptr_le := hr
  flen_le := hi.flen_le
  no_frame h := by simp [hv] at h
  frame := hi.frame
  memory := hi.memory

/-- Short of the end of the frame, the read position can move on by one without wrapping (R51). -/
theorem Inv.rptr_succ_le {s : State} (hi : Inv s) (h : s.rptr ≠ s.flen) : (s.rptr + 1).toNat ≤ s.flen.toNat := by
  have hle := hi.rptr_le
  have hcap := hi.flen_le
  bv_omega

/-! ### What an instruction can do to the Frame Encoder -/

/-- The ways an instruction that answers can leave the Frame Encoder's items: as they were, holding a newly built frame, empty
after a failed build, or with another read position in the held frame. -/
theorem exec_frameUnit_cases {i : Instr} {s t : State} (h : exec i s = .next t) :
    SameFrameUnit s t ∨
    (∃ ft dst payload, i = .frmBuild ft dst payload ∧ payload.length ≤ 8 ∧
      SameFrameUnit (holdFrame (buildFrame ft dst payload) s) t) ∨
    (∃ ft dst payload, i = .frmBuild ft dst payload ∧ 8 < payload.length ∧
      SameFrameUnit (dropFrame { s with ptl := true }) t) ∨
    (i = .frmNext ∧ s.fvalid = true ∧ s.rptr ≠ s.flen ∧ SameFrameUnit { s with rptr := s.rptr + 1 } t) ∨
    (i = .frmRewind ∧ s.fvalid = true ∧ SameFrameUnit { s with rptr := 0 } t) := by
  cases i with
  | sysStatus => cases h; exact .inl (.refl s)
  | crcInit => cases h; exact .inl (.refl s)
  | crcUpdate b => cases h; exact .inl (.refl s)
  | crcRead => cases h; exact .inl (.refl s)
  | crcVerify e => cases h; exact .inl (.refl s)
  | decDecode kind msb lsb =>
    rcases execDecDecode_cases kind msb lsb s with ⟨-, e⟩ | ⟨-, e⟩ <;>
      (rw [exec, e] at h; cases h; exact .inl (.refl s))
  | frmBuild ft dst payload =>
    rcases execFrmBuild_cases ft dst payload s with ⟨hn, e⟩ | ⟨hn, e⟩ <;> (rw [exec, e] at h; cases h)
    · exact .inr (.inl ⟨ft, dst, payload, rfl, hn, .refl _⟩)
    · exact .inr (.inr (.inl ⟨ft, dst, payload, rfl, hn, .refl _⟩))
  | frmLen =>
    rcases execFrmLen_cases s with ⟨-, e⟩ | ⟨-, e⟩ <;> (rw [exec, e] at h; cases h; exact .inl (.refl s))
  | frmNext =>
    rcases execFrmNext_cases s with ⟨-, e⟩ | ⟨-, -, e⟩ | ⟨hv, hr, b, -, e⟩ | ⟨-, -, f, -, e⟩ <;>
      (rw [exec, e] at h; cases h)
    · exact .inl (.refl s)
    · exact .inl (.refl s)
    · exact .inr (.inr (.inr (.inl ⟨rfl, hv, hr, .refl _⟩)))
  | frmRewind =>
    rcases execFrmRewind_cases s with ⟨hv, e⟩ | ⟨-, e⟩ <;> (rw [exec, e] at h; cases h)
    · exact .inr (.inr (.inr (.inr ⟨rfl, hv, .refl _⟩)))
    · exact .inl (.refl s)

/-- (I1) to (I3): every instruction keeps the invariant. -/
theorem exec_keeps_inv {i : Instr} {s t : State} (hi : Inv s) (h : exec i s = .next t) : Inv t := by
  rcases exec_frameUnit_cases h with hsame | ⟨ft, dst, payload, -, hn, hsame⟩ | ⟨ft, dst, payload, -, -, hsame⟩ |
    ⟨-, hv, hr, hsame⟩ | ⟨-, hv, hsame⟩
  · exact hi.of_sameFrameUnit hsame
  · exact (inv_holdFrame (wellFormedFrame_buildFrame ft dst hn) s).of_sameFrameUnit hsame
  · exact (inv_dropFrame _).of_sameFrameUnit hsame
  · exact (hi.setRptr hv (hi.rptr_succ_le hr)).of_sameFrameUnit hsame
  · exact (hi.setRptr hv (Nat.zero_le _)).of_sameFrameUnit hsame

/-- (I5): no instruction clears `ptl` (R27). -/
theorem exec_keeps_ptl {i : Instr} {s t : State} (hp : s.ptl = true) (h : exec i s = .next t) : t.ptl = true := by
  rcases exec_frameUnit_cases h with hsame | ⟨_, _, _, -, -, hsame⟩ | ⟨_, _, _, -, -, hsame⟩ | ⟨-, -, -, hsame⟩ |
    ⟨-, -, hsame⟩
  · exact hsame.ptl_eq.trans hp
  · exact hsame.ptl_eq.trans hp
  · exact hsame.ptl_eq
  · exact hsame.ptl_eq.trans hp
  · exact hsame.ptl_eq.trans hp

/-! ### What a step keeps -/

/-- (I1) to (I3): every step keeps the invariant. -/
theorem step_keeps_inv {s t : State} (hi : Inv s) (h : step s = .next t) : Inv t := by
  have htaken (rest : List HostMove) : Inv { s with moves := rest } := hi.of_sameFrameUnit (.refl s)
  rcases step_cases s with ⟨-, e⟩ | ⟨_, rest, i, -, -, e⟩ | ⟨_, rest, _, -, -, e⟩ | ⟨_, rest, -, e⟩ <;> rw [e] at h
  · cases h; exact hi
  · exact exec_keeps_inv (htaken rest) h
  · cases h; exact (htaken rest).of_sameFrameUnit (.refl _)
  · cases h; exact inv_applyReset _

/-- (I5): `ptl` is cleared by no step but a reset (R27). -/
theorem step_keeps_ptl {s t : State} (hp : s.ptl = true) (h : step s = .next t) :
    t.ptl = true ∨ ∃ abandoned rest, s.moves = .reset abandoned :: rest := by
  rcases step_cases s with ⟨-, e⟩ | ⟨_, rest, i, -, -, e⟩ | ⟨_, rest, _, -, -, e⟩ | ⟨abandoned, rest, hm, e⟩
  · rw [e] at h; cases h; exact .inl hp
  · rw [e] at h; exact .inl (exec_keeps_ptl (s := { s with moves := rest }) hp h)
  · rw [e] at h; cases h; exact .inl hp
  · exact .inr ⟨abandoned, rest, hm⟩

/-- (I4): the bits of `STATUS` above `ptl` read as 0 in every state (R31). -/
theorem statusRegister_getLsbD_high (s : State) {k : Nat} (hk : 2 ≤ k) : (statusRegister s).getLsbD k = false := by
  have happ : (statusRegister s).getLsbD k = _ :=
    BitVec.getLsbD_append (x := 0b000000#6 ++ BitVec.ofBool s.ptl) (y := BitVec.ofBool s.fvalid)
  rw [happ, BitVec.getLsbD_append, if_neg (by omega), if_neg (by omega)]
  exact BitVec.getLsbD_zero

/-! ### The obligations -/

/-- Settles O14: each instruction keeps the invariant and `ptl` by its effect on the Frame Encoder, a reset step ends in an empty
block, and `STATUS` has no bit above `ptl` in any state. -/
theorem everyStepKeepsTheInvariant : Obligations.EveryStepKeepsTheInvariant := by
  unfold Obligations.EveryStepKeepsTheInvariant
  exact ⟨fun _ t hi h => ⟨step_keeps_inv hi h, fun _ => statusRegister_getLsbD_high t, fun hp => step_keeps_ptl hp h⟩,
    State.reset_inv, fun _ => statusRegister_getLsbD_high State.reset⟩

/-- Settles O9: the reset state is written out in the model, and `SYS.STATUS` returns the two clear flags. -/
theorem resetValues : Obligations.ResetValues := by
  unfold Obligations.ResetValues
  exact ⟨rfl, rfl, rfl, rfl, rfl, rfl⟩

end Sys2Proof.Machine
end

section
/-!
PROOFS. The decoder (spec/30_encoding.md): which operands each format accepts (R72, R78), where the opcode map sends each opcode
(R74), and that the packets without an instruction are exactly the illegal ones of R79.
-/

namespace Sys2Proof

/-! ### Which operands a format accepts (R72, R77, R78) -/

theorem exists_formatZ_iff (i : Instr) (operands : List Byte) :
    (∃ j, formatZ i operands = .ok j) ↔ operands.length = 0 := by
  cases operands <;> simp [formatZ]

theorem exists_formatB_iff (i : Byte → Instr) (operands : List Byte) :
    (∃ j, formatB i operands = .ok j) ↔ operands.length = 1 := by
  match operands with
  | [] => simp [formatB]
  | [_] => simp [formatB]
  | _ :: _ :: _ => simp [formatB]

theorem exists_kindOfByte_iff (k : Byte) : (∃ kind, kindOfByte k = some kind) ↔ k ≤ 0x01 := by
  have hle : k ≤ 0x01 ↔ k = 0x00 ∨ k = 0x01 := by bv_omega
  rw [hle, kindOfByte]
  split_ifs with h0 h1
  · simp [h0]
  · simp [h1]
  · simp only [h0, h1, exists_false, or_self]

theorem exists_formatD_iff (operands : List Byte) :
    (∃ i, formatD operands = .ok i) ↔ operands.length = 3 ∧ ∀ k ∈ operands[0]?, k ≤ 0x01 := by
  match operands with
  | [] => simp [formatD]
  | [_] => simp [formatD]
  | [_, _] => simp [formatD]
  | [k, msb, lsb] =>
    have hkind := exists_kindOfByte_iff k
    cases h : kindOfByte k with
    | some kind =>
      have hle := hkind.mp ⟨kind, h⟩
      simpa [formatD, h] using hle
    | none =>
      have hle : ¬ k ≤ 0x01 := fun hk => by simpa [h] using hkind.mpr hk
      simpa [formatD, h] using hle
  | _ :: _ :: _ :: _ :: _ => simp [formatD]

theorem exists_formatF_iff (operands : List Byte) : (∃ i, formatF operands = .ok i) ↔ 9 ≤ operands.length := by
  constructor
  · rintro ⟨i, h⟩
    unfold formatF at h
    split at h
    · simp
    · cases h
  · intro h
    match operands, h with
    | ft :: d0 :: d1 :: d2 :: d3 :: d4 :: d5 :: d6 :: d7 :: payload, _ => exact ⟨_, rfl⟩

/-! ### Which packets of an opcode decode (R74) -/

variable {op : Byte} (operands : List Byte)

theorem exists_decode_opcodeZ_iff (hop : op ∈ ([0x01, 0x10, 0x12, 0x31, 0x32, 0x33] : List Byte)) :
    (∃ i, decode (op :: operands) = .ok i) ↔ operands.length = 0 := by
  simp only [List.mem_cons, List.not_mem_nil, or_false] at hop
  rcases hop with rfl | rfl | rfl | rfl | rfl | rfl <;> exact exists_formatZ_iff _ operands

theorem exists_decode_opcodeB_iff (hop : op ∈ ([0x11, 0x13] : List Byte)) :
    (∃ i, decode (op :: operands) = .ok i) ↔ operands.length = 1 := by
  simp only [List.mem_cons, List.not_mem_nil, or_false] at hop
  rcases hop with rfl | rfl <;> exact exists_formatB_iff _ operands

theorem exists_decode_opcodeD_iff :
    (∃ i, decode (0x20 :: operands) = .ok i) ↔ operands.length = 3 ∧ ∀ k ∈ operands[0]?, k ≤ 0x01 :=
  exists_formatD_iff operands

theorem exists_decode_opcodeF_iff : (∃ i, decode (0x30 :: operands) = .ok i) ↔ 9 ≤ operands.length :=
  exists_formatF_iff operands

theorem decode_unassignedOpcode
    (hop : op ∉ ([0x01, 0x10, 0x11, 0x12, 0x13, 0x20, 0x30, 0x31, 0x32, 0x33] : List Byte)) :
    decode (op :: operands) = .error .unassignedOpcode := by
  simp only [List.mem_cons, List.not_mem_nil, or_false, not_or] at hop
  simp only [decode, hop, if_false]

end Sys2Proof

namespace Sys2Proof.Machine

/-! ### Which packets of an opcode are illegal (R79) -/

variable {op : Byte} (operands : List Byte)

theorem illegalPacket_opcodeZ_iff (hop : op ∈ ([0x01, 0x10, 0x12, 0x31, 0x32, 0x33] : List Byte)) :
    IllegalPacket (op :: operands) ↔ operands.length ≠ 0 := by
  simp only [List.mem_cons, List.not_mem_nil, or_false] at hop
  rcases hop with rfl | rfl | rfl | rfl | rfl | rfl <;> simp [IllegalPacket]

theorem illegalPacket_opcodeB_iff (hop : op ∈ ([0x11, 0x13] : List Byte)) :
    IllegalPacket (op :: operands) ↔ operands.length ≠ 1 := by
  simp only [List.mem_cons, List.not_mem_nil, or_false] at hop
  rcases hop with rfl | rfl <;> simp [IllegalPacket]

theorem illegalPacket_opcodeD_iff :
    IllegalPacket (0x20 :: operands) ↔ operands.length ≠ 3 ∨ ∃ k ∈ operands[0]?, 0x01 < k := by
  simp [IllegalPacket]

theorem illegalPacket_opcodeF_iff : IllegalPacket (0x30 :: operands) ↔ operands.length < 9 := by
  have hlen : operands.length + 1 < 10 ↔ operands.length < 9 := by omega
  simp [IllegalPacket, hlen]

theorem illegalPacket_unassignedOpcode
    (hop : op ∉ ([0x01, 0x10, 0x11, 0x12, 0x13, 0x20, 0x30, 0x31, 0x32, 0x33] : List Byte)) :
    IllegalPacket (op :: operands) :=
  .inr (.inl (by simpa using hop))

/-! ### The obligation -/

/-- The decoder rejects exactly the packets R79 lists: both sides say the same of each format's operands. -/
theorem illegalPacket_iff_decode_error (cmd : Packet) : IllegalPacket cmd ↔ ¬ ∃ i, decode cmd = .ok i := by
  cases cmd with
  | nil => simp [IllegalPacket, decode]
  | cons op operands =>
    by_cases hZ : op ∈ ([0x01, 0x10, 0x12, 0x31, 0x32, 0x33] : List Byte)
    · rw [illegalPacket_opcodeZ_iff operands hZ, exists_decode_opcodeZ_iff operands hZ]
    by_cases hB : op ∈ ([0x11, 0x13] : List Byte)
    · rw [illegalPacket_opcodeB_iff operands hB, exists_decode_opcodeB_iff operands hB]
    by_cases hD : op = 0x20
    · subst hD
      rw [illegalPacket_opcodeD_iff, exists_decode_opcodeD_iff]
      simp only [not_and_or, not_forall, exists_prop, BitVec.not_le, ne_eq]
    by_cases hF : op = 0x30
    · subst hF
      rw [illegalPacket_opcodeF_iff, exists_decode_opcodeF_iff, not_le]
    have hop : op ∉ ([0x01, 0x10, 0x11, 0x12, 0x13, 0x20, 0x30, 0x31, 0x32, 0x33] : List Byte) := by
      simp_all
    simp [illegalPacket_unassignedOpcode operands hop, decode_unassignedOpcode operands hop]

/-- The block answers an illegal packet `[0xFF]`, whatever made it illegal, and changes nothing (R216). -/
theorem serveCommand_of_illegalPacket {cmd : Packet} (h : IllegalPacket cmd) (s : State) :
    serveCommand cmd s = .next (answered [0xFF] s) := by
  cases hd : decode cmd with
  | ok i => exact absurd ⟨i, hd⟩ ((illegalPacket_iff_decode_error cmd).mp h)
  | error e => exact serveCommand_of_illegal hd s

/-- Settles O4: the decoder's errors are the packets of R79, and the block answers every decoding error alike. -/
theorem illegalPacketsChangeNothing : Obligations.IllegalPacketsChangeNothing := by
  unfold Obligations.IllegalPacketsChangeNothing
  refine ⟨fun s cmd rest hcmd hm => ?_, fun cmd hcmd => ?_, fun operands => ?_⟩
  · rw [step_command hm, serveCommand_of_illegalPacket hcmd]
  · exact not_not.mp (mt (illegalPacket_iff_decode_error cmd).mpr hcmd)
  · exact illegalPacket_unassignedOpcode operands (by decide)

end Sys2Proof.Machine
end

section
/-!
PROOFS. The Checksum Engine (spec/40_crc.md): what its four commands do (R103 to R106), the byte update as the written-out steps
of R101 and as the table of R111, and the sequence `CRC.CHECK` (R108).
-/

namespace Sys2Proof

/-- The packet of every instruction decodes to that instruction (R74, R78). -/
@[simp] theorem decode_encode (i : Instr) : decode (encode i) = .ok i := by
  cases i with
  | sysStatus => rfl
  | crcInit => rfl
  | crcUpdate b => rfl
  | crcRead => rfl
  | crcVerify e => rfl
  | decDecode kind msb lsb => cases kind <;> rfl
  | frmBuild ft dst payload =>
    rw [encode, Machine.vector8_toList]
    exact congrArg (fun d => Except.ok (Instr.frmBuild ft d payload)) (Machine.vector8_eta dst).symm
  | frmLen => rfl
  | frmNext => rfl
  | frmRewind => rfl

end Sys2Proof

namespace Sys2Proof.Machine

/-! ### What each command does (R103 to R106) -/

@[simp] theorem exec_crcInit (s : State) : exec .crcInit s = .next (answered [0x00] { s with crc := 0x00 }) := rfl

@[simp] theorem exec_crcUpdate (b : Byte) (s : State) :
    exec (.crcUpdate b) s = .next (answered [0x00] { s with crc := crc8Update s.crc b }) := rfl

@[simp] theorem exec_crcRead (s : State) : exec .crcRead s = .next (answered [0x00, s.crc] s) := rfl

/-- A mismatch is a result byte and not an error: the status is `OK` in both cases (R106). -/
@[simp] theorem exec_crcVerify (e : Byte) (s : State) :
    exec (.crcVerify e) s = .next (answered [0x00, if e = s.crc then 0x01 else 0x00] s) := by
  simp only [exec, execCrcVerify, reply_eq_next, boolByte, beq_iff_eq, eq_comm (a := e)]

/-! ### The byte update (R101, R111) -/

theorem crcShifts_eq_iterate (count : Nat) (r : Byte) : crcShifts count r = crcShift^[count] r := by
  induction count generalizing r with
  | zero => rfl
  | succ k ih => exact ih (crcShift r)

theorem crcShifts_eq_foldl (count : Nat) (r : Byte) :
    crcShifts count r = (List.range count).foldl (fun r _ => crcShift r) r := by
  rw [crcShifts_eq_iterate, List.foldl_const, List.length_range]

theorem crc8Update_eq_foldl (c b : Byte) :
    crc8Update c b = (List.range 8).foldl
      (fun (r : Byte) _ => if r.getLsbD 7 = true then (r <<< 1) ^^^ 0x31 else r <<< 1) (c ^^^ b) :=
  crcShifts_eq_foldl 8 (c ^^^ b)

/-- A byte equal to the register cancels it, and the shifts keep zero (R104). -/
@[simp] theorem crc8Update_self (c : Byte) : crc8Update c c = 0x00 := by
  rw [crc8Update, BitVec.xor_self]
  rfl

/-- The printed table lists the eight-step update of 0, 1, ..., 255 in order (R111). -/
theorem crcTable_eq_map : crcTable = (List.range 256).map (fun n => crcShifts 8 (BitVec.ofNat 8 n)) := by
  decide +kernel

theorem crcTable_getElem? (x : Byte) : crcTable[x.toNat]? = some (crcShifts 8 x) := by
  rw [crcTable_eq_map, List.getElem?_map, List.getElem?_range x.isLt, Option.map_some, BitVec.ofNat_toNat,
    BitVec.setWidth_eq]

/-! ### Feeding bytes (R102, R107, R108) -/

/-- A step on the packet of an instruction executes it with the move taken off the list. -/
theorem step_issue {s : State} {i : Instr} {rest : List HostMove} (h : s.moves = issue i :: rest) :
    step s = exec i { s with moves := rest } := by
  rw [step_command h, serveCommand_of_decode (decode_encode i)]

/-- A run of `CRC.UPDATE` commands folds the update over their bytes and answers each with `OK`. -/
theorem run_crcUpdates (data : List Byte) {s : State} {rest : List HostMove}
    (h : s.moves = data.map (fun b => issue (.crcUpdate b)) ++ rest) :
    run data.length s = .next
      { s with
        crc := data.foldl crc8Update s.crc
        moves := rest
        responses := s.responses ++ List.replicate data.length [0x00] } := by
  induction data generalizing s with
  | nil =>
    subst h
    simp [run_zero]
  | cons b bytes ih =>
    rw [List.length_cons, run_succ_of_next ((step_issue h).trans (exec_crcUpdate b _)), ih rfl]
    simp [answered, List.replicate_succ]

/-- `CRC.INIT` and the updates after it leave the checksum of the bytes in `crc`, whatever was there. -/
theorem run_feedBytes (data : List Byte) {s : State} {rest : List HostMove} (h : s.moves = feedBytes data ++ rest) :
    run (data.length + 1) s = .next
      { s with
        crc := crc8 data
        moves := rest
        responses := s.responses ++ List.replicate (data.length + 1) [0x00] } := by
  rw [run_succ_of_next ((step_issue h).trans (exec_crcInit _)), run_crcUpdates data rfl]
  simp [answered, crc8, Config.crcInit, List.replicate_succ]

/-! ### The obligations -/

/-- Settles O30: the table is the list of the update's values, and the update depends on `c ^ b` alone. -/
theorem updateEqualsTable : Obligations.UpdateEqualsTable := by
  unfold Obligations.UpdateEqualsTable
  refine ⟨?_, fun c b => crcTable_getElem? (c ^^^ b)⟩
  rw [crcTable_eq_map, List.length_map, List.length_range]

/-- Settles O36: after the bytes are fed the register is the checksum, and one step more compares it with `e`. -/
theorem checkSequenceVerifies : Obligations.CheckSequenceVerifies := by
  unfold Obligations.CheckSequenceVerifies
  intro data e s rest hm
  have hfeed : s.moves = feedBytes data ++ (issue (.crcVerify e) :: rest) := by
    simpa [crcCheck] using hm
  rw [run_add_of_next (k := 1) (run_feedBytes data hfeed), run_succ_of_next ((step_issue rfl).trans (exec_crcVerify e _)),
    run_zero]
  rfl

/-- Settles O25: `CRC.INIT` writes `crc` and answers `OK`. -/
theorem crcInitClearsCrc : Obligations.CrcInitClearsCrc := by
  unfold Obligations.CrcInitClearsCrc
  exact ⟨rfl, exec_crcInit⟩

/-- Settles O26: the new value is the written-out update, which is 0x00 for a byte equal to the register. -/
theorem crcUpdateFeedsOneByte : Obligations.CrcUpdateFeedsOneByte := by
  unfold Obligations.CrcUpdateFeedsOneByte
  refine ⟨fun b s => ?_, fun b s hb => ?_, fun b => rfl⟩
  · rw [exec_crcUpdate, crc8Update_eq_foldl]
  · rw [exec_crcUpdate, hb, crc8Update_self]

/-- Settles O27: `CRC.READ` answers the register and leaves the state. -/
theorem crcReadReturnsCrc : Obligations.CrcReadReturnsCrc := by
  unfold Obligations.CrcReadReturnsCrc
  exact ⟨rfl, exec_crcRead⟩

/-- Settles O28: the result byte follows the comparison, and the status is `OK` on both sides of it. -/
theorem crcVerifyCompares : Obligations.CrcVerifyCompares := by
  unfold Obligations.CrcVerifyCompares
  refine fun e s => ⟨fun h => ?_, fun h => ?_, rfl⟩
  · rw [exec_crcVerify, if_pos h.symm]
  · rw [exec_crcVerify, if_neg (Ne.symm h)]

end Sys2Proof.Machine
end

section
/-!
PROOFS. The Reading Decoder (spec/41_decoder.md): what `DEC.DECODE` answers on either value of the status bit (R133, R140), the
layout of a 14-bit value with its status bit (R130, R141), and the five constants (R136).
-/

namespace Sys2Proof.Machine

/-! ### What `DEC.DECODE` answers (R133, R140) -/

section

variable {kind : MeasurementKind} {lsb : Byte}

theorem exec_decDecode_of_statusBit_eq (h : statusBit lsb = expectedFor kind) (msb : Byte) (s : State) :
    exec (.decDecode kind msb lsb) s =
      .next (answered (0x00 :: (bytes16 (raw16 msb lsb) ++ bytes32 (physicalValue kind (raw16 msb lsb)))) s) := by
  obtain ⟨-, e⟩ | ⟨hne, -⟩ := execDecDecode_cases kind msb lsb s
  · exact e
  · exact absurd h hne

theorem exec_decDecode_of_statusBit_ne (h : statusBit lsb ≠ expectedFor kind) (msb : Byte) (s : State) :
    exec (.decDecode kind msb lsb) s = .next (answered [0x01] s) := by
  obtain ⟨heq, -⟩ | ⟨-, e⟩ := execDecDecode_cases kind msb lsb s
  · exact absurd heq h
  · exact e

end

/-- The response that was emitted can be read off the state after it. -/
theorem answered_inj {p q : Packet} {s : State} : answered p s = answered q s ↔ p = q := by
  refine ⟨fun h => ?_, congrArg (answered · s)⟩
  have hresp : s.responses ++ [p] = s.responses ++ [q] := congrArg State.responses h
  simpa using hresp

/-- `WRONG_KIND` is answered exactly on a mismatch, since a value is answered with another status (R133, R212). -/
theorem exec_decDecode_eq_wrongKind_iff (kind : MeasurementKind) (msb lsb : Byte) (s : State) :
    exec (.decDecode kind msb lsb) s = .next (answered [0x01] s) ↔ statusBit lsb ≠ expectedFor kind := by
  refine ⟨fun h heq => ?_, fun h => exec_decDecode_of_statusBit_ne h msb s⟩
  rw [exec_decDecode_of_statusBit_eq heq, Host.Outcome.next.injEq, answered_inj, List.cons.injEq] at h
  obtain ⟨hstatus, -⟩ := h
  exact absurd hstatus (by decide)

/-- The two kinds expect opposite status bits (R132). -/
theorem expectedFor_humidity_eq_not : expectedFor .humidity = !expectedFor .temperature := rfl

/-! ### The layout of a reading (R130, R141) -/

/-- The status bit is read from below the six measurement bits and above the reserved bit. -/
theorem statusBit_layout (m : BitVec 6) (status r : Bool) :
    statusBit (m ++ BitVec.ofBool status ++ BitVec.ofBool r) = status := by
  rw [statusBit, BitVec.getLsbD_append, BitVec.getLsbD_append]
  exact BitVec.getLsbD_ofBool status 0

/-- The mask of R134 keeps the six measurement bits of `lsb` and clears the status and the reserved bit. -/
theorem layout_and_mask (m : BitVec 6) (status r : Bool) :
    (m ++ BitVec.ofBool status ++ BitVec.ofBool r) &&& 0xFC = m ++ 0b00#2 := by
  calc (m ++ BitVec.ofBool status ++ BitVec.ofBool r) &&& (BitVec.allOnes 6 ++ 0#1 ++ 0#1)
    _ = m ++ 0#1 ++ 0#1 := by simp only [BitVec.and_append, BitVec.and_allOnes, BitVec.and_zero]
    _ = m ++ 0b00#2 := BitVec.append_assoc

/-- The two bytes hold the 14 measurement bits in order, whatever the status and the reserved bit are. -/
theorem raw16_layout (v : BitVec 14) (status r : Bool) :
    raw16 (v.extractLsb' 6 8) (v.extractLsb' 0 6 ++ BitVec.ofBool status ++ BitVec.ofBool r) = v ++ 0b00#2 := by
  calc v.extractLsb' 6 8 ++ ((v.extractLsb' 0 6 ++ BitVec.ofBool status ++ BitVec.ofBool r) &&& 0xFC)
    _ = v.extractLsb' 6 8 ++ (v.extractLsb' 0 6 ++ 0b00#2) := by rw [layout_and_mask]
    _ = v.extractLsb' 6 8 ++ v.extractLsb' 0 6 ++ 0b00#2 := BitVec.append_assoc'
    _ = v ++ 0b00#2 := congrArg (· ++ 0b00#2) (BitVec.extractLsb'_append_extractLsb' (w := 8) (len := 6))

/-- Two zero bits below a 14-bit value multiply it by four. -/
theorem toNat_append_two_zeros (v : BitVec 14) : (v ++ 0b00#2).toNat = 4 * v.toNat := by
  rw [BitVec.toNat_append, BitVec.toNat_ofNat, Nat.zero_mod, Nat.or_zero, Nat.shiftLeft_eq]
  omega

/-! ### The constants (R136) -/

/-- Each constant is the source's decimal rounded to nearest even. -/
theorem constants_eq_f32 :
    Config.tMul = f32 17572 100 ∧ Config.tAdd = f32 (-4685) 100 ∧ Config.hMul = f32 1250 10 ∧
    Config.hAdd = f32 (-60) 10 ∧ Config.scale = f32 655360 10 := by
  decide

/-- The exact value of each constant: 5757993 / 32768, -6140723 / 131072 and three integers, in units of 2^-149. -/
theorem units_constants :
    units Config.tMul * 32768 = 5757993 * 2 ^ 149 ∧ units Config.tAdd * 131072 = -6140723 * 2 ^ 149 ∧
    units Config.hMul = 125 * 2 ^ 149 ∧ units Config.hAdd = -6 * 2 ^ 149 ∧ units Config.scale = 2 ^ 16 * 2 ^ 149 := by
  decide

/-! ### The obligations -/

/-- Settles O40: `WRONG_KIND` is answered exactly when the status bit differs from the kind's, a value otherwise; and the bit
differs from one of the two opposite expectations and not from the other. -/
theorem decodeRejectsTheWrongKind : Obligations.DecodeRejectsTheWrongKind := by
  unfold Obligations.DecodeRejectsTheWrongKind
  refine ⟨fun kind msb lsb s h => exec_decDecode_of_statusBit_ne h msb s,
    fun kind msb lsb s h => ⟨_, exec_decDecode_of_statusBit_eq h msb s⟩, fun msb lsb s => ?_⟩
  rw [exec_decDecode_eq_wrongKind_iff, exec_decDecode_eq_wrongKind_iff, expectedFor_humidity_eq_not, ne_eq, ne_eq, not_not,
    Bool.eq_not]

/-- Settles O42: the two bytes carry the kind's status bit, so the value is answered, and `raw16` is the 14 bits above two zero
bits. -/
theorem readingRoundTrip : Obligations.ReadingRoundTrip := by
  unfold Obligations.ReadingRoundTrip
  intro v kind r s msb lsb
  have hraw : raw16 msb lsb = v ++ 0b00#2 := raw16_layout v _ r
  have hstatus : statusBit lsb = expectedFor kind := statusBit_layout _ _ r
  rw [exec_decDecode_of_statusBit_eq hstatus, hraw]
  exact ⟨toNat_append_two_zeros v, rfl⟩

/-- Settles O43: the stored patterns are the rounded decimals, and their exact values are those of R136's table. -/
theorem constantsAreTheSourcesDecimals : Obligations.ConstantsAreTheSourcesDecimals := by
  unfold Obligations.ConstantsAreTheSourcesDecimals
  obtain ⟨htMul, htAdd, hhMul, hhAdd, hscale⟩ := constants_eq_f32
  obtain ⟨utMul, utAdd, uhMul, uhAdd, uscale⟩ := units_constants
  exact ⟨htMul, utMul, htAdd, utAdd, hhMul, uhMul, hhAdd, uhAdd, hscale, uscale, rfl, rfl, rfl, rfl, rfl⟩

end Sys2Proof.Machine
end

section
/-!
PROOFS. The Frame Encoder (spec/42_frame.md): what a successful `FRM.BUILD` answers and holds (R160 to R166), that a frame gives
its operands back (R172), the receiver's check (R173), and the commands `FRM.LEN` and `FRM.REWIND` (R167, R169).
-/

namespace Sys2Proof.Machine

/-! ### Lengths as response bytes (R76) -/

/-- An offset is sent as its value: the conversion to a byte drops no bit. -/
theorem offsetByte_eq_ofNat (v : Offset) : offsetByte v = BitVec.ofNat 8 v.toNat :=
  (BitVec.ofNat_toNat 8 v).symm

theorem offsetByte_ofNat {n : Nat} (h : n < 32) : offsetByte (BitVec.ofNat 5 n) = BitVec.ofNat 8 n := by
  rw [offsetByte_eq_ofNat, BitVec.toNat_ofNat, Nat.mod_eq_of_lt h]

/-! ### What a successful build answers and holds (R165, R166) -/

/-- The frame written out byte by byte, as R165 gives it for a payload that fits. -/
theorem buildFrame_eq_layout (ft : Byte) (dst : Vector Byte 8) {payload : List Byte} (h : payload.length ≤ 8) :
    buildFrame ft dst payload =
      [0x7E, 0x00, BitVec.ofNat 8 (11 + payload.length)] ++ frameBody ft dst payload ++
        [BitVec.ofNat 8 (0xFF - ((frameBody ft dst payload).map BitVec.toNat).sum % 256)] := by
  have hhi : lenHi (lengthField payload.length) = 0x00 := lenHi_eq_zero (by simp only [lengthField, Config.lenOverhead]; omega)
  have hlo : lenLo (lengthField payload.length) = BitVec.ofNat 8 (11 + payload.length) := lenLo_eq _
  simp only [buildFrame, hhi, hlo, frameChecksum_eq_ofNat]
  rfl

/-- Installing a built frame changes these four fields. -/
theorem holdFrame_buildFrame (ft : Byte) (dst : Vector Byte 8) (payload : List Byte) (s : State) :
    holdFrame (buildFrame ft dst payload) s =
      { s with
        fbuf := Memory.writeAll [] 0 (buildFrame ft dst payload)
        flen := BitVec.ofNat 5 (15 + payload.length)
        rptr := 0
        fvalid := true } := by
  rw [holdFrame, buildFrame_length]

theorem exec_frmBuild_of_length_le {payload : List Byte} (h : payload.length ≤ 8) (ft : Byte) (dst : Vector Byte 8)
    (s : State) :
    exec (.frmBuild ft dst payload) s =
      .next (answered [0x00, BitVec.ofNat 8 (15 + payload.length)] (holdFrame (buildFrame ft dst payload) s)) := by
  obtain ⟨-, e⟩ | ⟨hlt, -⟩ := execFrmBuild_cases ft dst payload s
  · rw [buildFrame_length, offsetByte_ofNat (by omega)] at e
    exact e
  · omega

/-- After a successful build the block holds the built frame, and `flen` is its length. -/
theorem held_of_exec_frmBuild {ft : Byte} {dst : Vector Byte 8} {payload : List Byte} {s t : State}
    (h : payload.length ≤ 8) (ht : exec (.frmBuild ft dst payload) s = .next t) :
    heldFrame t = buildFrame ft dst payload ∧ t.flen.toNat = (buildFrame ft dst payload).length := by
  have hlen : (buildFrame ft dst payload).length ≤ 23 := by rw [buildFrame_length]; omega
  rw [exec_frmBuild_of_length_le h] at ht
  cases ht
  exact ⟨heldFrame_holdFrame hlen s, Nat.mod_eq_of_lt (by omega)⟩

/-! ### A frame gives its operands back (R172) -/

section

variable (ft : Byte) (dst : Vector Byte 8) (payload : List Byte)

theorem buildFrame_frameType : (buildFrame ft dst payload)[3]? = some ft := rfl

theorem buildFrame_destination : ((buildFrame ft dst payload).drop 5).take 8 = dst.toList := by
  simp [buildFrame, frameBody]

theorem buildFrame_payload : ((buildFrame ft dst payload).drop 14).dropLast = payload := by
  simp [buildFrame, frameBody, vector8_toList]

end

/-- `build_frame` is injective on payloads of any length, since every operand can be read back from the frame. -/
theorem buildFrame_inj {ft ft' : Byte} {dst dst' : Vector Byte 8} {payload payload' : List Byte}
    (h : buildFrame ft dst payload = buildFrame ft' dst' payload') : ft = ft' ∧ dst = dst' ∧ payload = payload' := by
  refine ⟨?_, ?_, ?_⟩
  · rw [← Option.some_inj, ← buildFrame_frameType ft dst payload, h, buildFrame_frameType]
  · rw [← Vector.toList_inj, ← buildFrame_destination ft dst payload, h, buildFrame_destination]
  · rw [← buildFrame_payload ft dst payload, h, buildFrame_payload]

/-! ### The receiver's check (R173) -/

theorem byteSum_toNat (bytes : List Byte) : (byteSum bytes).toNat = (bytes.map BitVec.toNat).sum % 256 := rfl

/-- Bytes followed by their checksum sum to 0xFF: the checksum is what their sum lacks. -/
theorem byteSum_append_frameChecksum (body : List Byte) : byteSum (body ++ [frameChecksum body]) = 0xFF := by
  rw [byteSum_append, byteSum_singleton, frameChecksum, BitVec.add_comm, BitVec.sub_add_cancel]

/-- From offset 3 on, a well-formed frame is its body followed by the body's checksum. -/
theorem WellFormedFrame.drop_three {f : List Byte} (h : WellFormedFrame f) :
    f.drop 3 = (f.drop 3).dropLast ++ [frameChecksum (f.drop 3).dropLast] := by
  obtain ⟨hlen, -, -, -, -, -, -, hlast⟩ := h
  have hlast' : (f.drop 3).getLast? = some (frameChecksum (f.drop 3).dropLast) := by
    rw [List.getLast?_drop, if_neg (by omega), hlast, frameChecksum_eq_ofNat]
  exact (List.dropLast_append_getLast? _ hlast').symm

/-! ### The obligations -/

/-- Settles O51: the model's frame is the written-out layout, and the buffer reads as the frame that was installed in it. -/
theorem buildHoldsTheFrame : Obligations.BuildHoldsTheFrame := by
  unfold Obligations.BuildHoldsTheFrame
  intro ft dst payload s h body frame
  have hframe : frame = buildFrame ft dst payload := (buildFrame_eq_layout ft dst h).symm
  rw [hframe]
  refine ⟨Memory.writeAll [] 0 (buildFrame ft dst payload), ?_, buildFrame_length ft dst payload, rfl,
    fun a _ => Memory.read_writeAll_nil _ a, rfl⟩
  rw [exec_frmBuild_of_length_le h, holdFrame_buildFrame]

/-- Settles O53: the frame held after a build is the built one, which is well-formed and gives its operands back. -/
theorem builtFramesAreWellFormedAndDistinct : Obligations.BuiltFramesAreWellFormedAndDistinct := by
  unfold Obligations.BuiltFramesAreWellFormedAndDistinct
  refine ⟨fun ft dst payload s t h ht => ?_, fun _ _ _ _ _ _ _ _ heq => buildFrame_inj heq⟩
  obtain ⟨hframe, hflen⟩ := held_of_exec_frmBuild h ht
  rw [hframe]
  exact ⟨wellFormedFrame_buildFrame ft dst h, hflen.symm, buildFrame_frameType ft dst payload,
    buildFrame_destination ft dst payload, buildFrame_payload ft dst payload⟩

/-- Settles O54: the bytes from offset 3 on are a body and its checksum, whose byte sum is 0xFF. -/
theorem receiverCheckHolds : Obligations.ReceiverCheckHolds := by
  unfold Obligations.ReceiverCheckHolds
  intro f hf
  rw [← byteSum_toNat, hf.drop_three, byteSum_append_frameChecksum]
  rfl

/-- Settles O55: `flen` is answered as a byte of the same value while a frame is held. -/
theorem frmLenReturnsTheFrameLength : Obligations.FrmLenReturnsTheFrameLength := by
  unfold Obligations.FrmLenReturnsTheFrameLength
  intro s
  rw [← offsetByte_eq_ofNat]
  obtain ⟨hv, e⟩ | ⟨hv, e⟩ := execFrmLen_cases s
  · exact ⟨fun _ => e, fun hf => by simp [hv] at hf, rfl⟩
  · exact ⟨fun ht => by simp [hv] at ht, fun _ => e, rfl⟩

/-- Settles O57: `FRM.REWIND` moves the read position to 0 while a frame is held. -/
theorem frmRewindRestartsTheReadOut : Obligations.FrmRewindRestartsTheReadOut := by
  unfold Obligations.FrmRewindRestartsTheReadOut
  intro s
  obtain ⟨hv, e⟩ | ⟨hv, e⟩ := execFrmRewind_cases s
  · exact ⟨fun _ => e, fun hf => by simp [hv] at hf, rfl⟩
  · exact ⟨fun ht => by simp [hv] at ht, fun _ => e, rfl⟩

end Sys2Proof.Machine
end

section
/-!
PROOFS. The system command (spec/43_system.md): what `SYS.STATUS` answers (R200), and the bits of `STATUS` that are the two
flags (R31). The bits above them are `statusRegister_getLsbD_high`.
-/

namespace Sys2Proof.Machine

@[simp] theorem exec_sysStatus (s : State) : exec .sysStatus s = .next (answered [0x00, statusRegister s] s) := rfl

/-- `fvalid` is the low part of `STATUS` (R31). -/
theorem statusRegister_getLsbD_zero (s : State) : (statusRegister s).getLsbD 0 = s.fvalid := by
  have happ : (statusRegister s).getLsbD 0 = (BitVec.ofBool s.fvalid).getLsbD 0 :=
    BitVec.getLsbD_append (x := 0b000000#6 ++ BitVec.ofBool s.ptl)
  rw [happ]
  exact BitVec.getLsbD_ofBool s.fvalid 0

/-- `ptl` stands above the one bit of `fvalid` (R31). -/
theorem statusRegister_getLsbD_one (s : State) : (statusRegister s).getLsbD 1 = s.ptl := by
  have happ : (statusRegister s).getLsbD 1 = (0b000000#6 ++ BitVec.ofBool s.ptl).getLsbD 0 :=
    BitVec.getLsbD_append (y := BitVec.ofBool s.fvalid)
  rw [happ, BitVec.getLsbD_append]
  exact BitVec.getLsbD_ofBool s.ptl 0

/-! ### The obligation -/

/-- Settles O24: the byte answered is `STATUS`, whose two low bits are the flags and whose other bits read as 0. -/
theorem sysStatusReturnsTheFlags : Obligations.SysStatusReturnsTheFlags := by
  unfold Obligations.SysStatusReturnsTheFlags
  exact fun s => ⟨statusRegister s, exec_sysStatus s, statusRegister_getLsbD_zero s, statusRegister_getLsbD_one s,
    fun _ => statusRegister_getLsbD_high s, rfl⟩

end Sys2Proof.Machine
end

section
/-!
PROOFS. The errors (spec/60_exceptions.md): every command that answers either completes with `OK` or raises one of the five errors
of R211, and what raising an error can change (R221).
-/

namespace Sys2Proof.Machine

/-! ### A command that answers replies `OK` or raises an error (R13, R210) -/

/-- What a meaning answers, if it does not stop, is a response `OK` or what `raise` makes of the state it started from. -/
theorem exec_ok_or_raise {i : Instr} {s t : State} (h : exec i s = .next t) :
    (∃ results, t.responses = s.responses ++ [0x00 :: results]) ∨ ∃ e, raise e s = .next t := by
  cases i with
  | sysStatus => cases h; exact .inl ⟨_, rfl⟩
  | crcInit => cases h; exact .inl ⟨_, rfl⟩
  | crcUpdate b => cases h; exact .inl ⟨_, rfl⟩
  | crcRead => cases h; exact .inl ⟨_, rfl⟩
  | crcVerify e => cases h; exact .inl ⟨_, rfl⟩
  | decDecode kind msb lsb =>
    rcases execDecDecode_cases kind msb lsb s with ⟨-, e⟩ | ⟨-, e⟩ <;> rw [exec, e] at h
    · cases h; exact .inl ⟨_, rfl⟩
    · exact .inr ⟨.wrongKind, h⟩
  | frmBuild ft dst payload =>
    rcases execFrmBuild_cases ft dst payload s with ⟨-, e⟩ | ⟨-, e⟩ <;> rw [exec, e] at h
    · cases h; exact .inl ⟨_, rfl⟩
    · exact .inr ⟨.payloadTooLarge, h⟩
  | frmLen =>
    rcases execFrmLen_cases s with ⟨-, e⟩ | ⟨-, e⟩ <;> rw [exec, e] at h
    · cases h; exact .inl ⟨_, rfl⟩
    · exact .inr ⟨.noFrame, h⟩
  | frmNext =>
    rcases execFrmNext_cases s with ⟨-, e⟩ | ⟨-, -, e⟩ | ⟨-, -, b, -, e⟩ | ⟨-, -, f, -, e⟩ <;> rw [exec, e] at h
    · exact .inr ⟨.noFrame, h⟩
    · exact .inr ⟨.endOfFrame, h⟩
    · cases h; exact .inl ⟨_, rfl⟩
    · cases h
  | frmRewind =>
    rcases execFrmRewind_cases s with ⟨-, e⟩ | ⟨-, e⟩ <;> rw [exec, e] at h
    · cases h; exact .inl ⟨_, rfl⟩
    · exact .inr ⟨.noFrame, h⟩

/-- The same of every packet: an illegal one raises `Illegal` (R216). -/
theorem serveCommand_ok_or_raise {cmd : Packet} {s t : State} (h : serveCommand cmd s = .next t) :
    (∃ results, t.responses = s.responses ++ [0x00 :: results]) ∨ ∃ e, raise e s = .next t := by
  cases hd : decode cmd with
  | ok i => rw [serveCommand_of_decode hd] at h; exact exec_ok_or_raise h
  | error ill => rw [serveCommand_of_illegal hd] at h; exact .inr ⟨.illegal, h⟩

/-! ### What an error answers and changes (R211) -/

/-- An error is answered by its code alone. -/
theorem raise_responses {e : BlockError} {s t : State} (h : raise e s = .next t) :
    t.responses = s.responses ++ [[statusCode (errorStatus e)]] := by
  cases e <;> (cases h; rfl)

/-- The column "state the block changes" of R211: nothing, but for `PayloadTooLarge`. -/
theorem raise_sameBlock {e : BlockError} {s t : State} (h : raise e s = .next t) (he : e ≠ .payloadTooLarge) :
    SameBlock s t := by
  cases e with
  | payloadTooLarge => exact absurd rfl he
  | wrongKind | noFrame | endOfFrame | illegal => cases h; exact ⟨rfl, rfl, rfl, rfl, rfl, rfl⟩

/-- 0x02 is the code of `PayloadTooLarge` and of no other error. -/
theorem statusCode_errorStatus_eq_two_iff (e : BlockError) :
    statusCode (errorStatus e) = 0x02 ↔ e = .payloadTooLarge := by
  cases e <;> decide

/-- One response can be appended to the same responses in one way, so its status is determined. -/
theorem status_eq_of_append_eq {responses : List Packet} {status status' : Byte} {results results' : List Byte}
    (h : responses ++ [status :: results] = responses ++ [status' :: results']) : status = status' := by
  rw [List.append_cancel_left_eq, List.singleton_inj, List.cons.injEq] at h
  exact h.left

/-! ### The obligation -/

/-- Settles O12: a status other than `OK` was raised, its error is `PayloadTooLarge` exactly when it is 0x02, and the two kinds of
error change what R211 lists. -/
theorem errorsChangeOnlyWhatIsListed : Obligations.ErrorsChangeOnlyWhatIsListed := by
  unfold Obligations.ErrorsChangeOnlyWhatIsListed
  intro s t cmd rest status results hm hstep hresp
  rw [step_command hm] at hstep
  obtain ⟨_, hok⟩ | ⟨e, he⟩ := serveCommand_ok_or_raise hstep
  · obtain rfl := status_eq_of_append_eq (hresp.symm.trans hok)
    exact ⟨fun hne => absurd rfl hne, fun h => absurd h (by decide)⟩
  · have hcode := raise_responses he
    obtain rfl := status_eq_of_append_eq (hresp.symm.trans hcode)
    rw [ne_eq (statusCode _) 0x02, statusCode_errorStatus_eq_two_iff]
    refine ⟨fun _ => raise_sameBlock (s := { s with moves := rest }) he, ?_⟩
    rintro rfl
    cases he
    exact ⟨rfl, rfl, rfl, rfl, rfl⟩

end Sys2Proof.Machine
end

section
/-!
PROOFS. Decoding and encoding agree (spec/30_encoding.md): which operands each format reads as which instruction (R72, R77), the
two directions between packets and instructions (R81), the opcode table (R85) and the order of the decoder's errors (R220).
-/

namespace Sys2Proof

/-! ### What each format reads (R72, R77) -/

theorem formatZ_eq_ok_iff {i j : Instr} {operands : List Byte} : formatZ i operands = .ok j ↔ operands = [] ∧ i = j := by
  cases operands <;> simp [formatZ]

theorem formatB_eq_ok_iff {i : Byte → Instr} {j : Instr} {operands : List Byte} :
    formatB i operands = .ok j ↔ ∃ b, operands = [b] ∧ i b = j := by
  match operands with
  | [] => simp [formatB]
  | [_] => simp [formatB]
  | _ :: _ :: _ => simp [formatB]

@[simp] theorem kindOfByte_byteOfKind (kind : MeasurementKind) : kindOfByte (byteOfKind kind) = some kind := by
  cases kind <;> rfl

theorem eq_byteOfKind_of_kindOfByte {k : Byte} {kind : MeasurementKind} (h : kindOfByte k = some kind) :
    k = byteOfKind kind := by
  rw [kindOfByte] at h
  split_ifs at h with h0 h1 <;> cases h
  · exact h0
  · exact h1

theorem formatD_eq_ok_iff {j : Instr} {operands : List Byte} :
    formatD operands = .ok j ↔
      ∃ kind msb lsb, operands = [byteOfKind kind, msb, lsb] ∧ Instr.decDecode kind msb lsb = j := by
  constructor
  · intro h
    unfold formatD at h
    split at h
    · rename_i k msb lsb
      split at h
      · rename_i kind hk
        cases h
        exact ⟨kind, msb, lsb, by rw [eq_byteOfKind_of_kindOfByte hk], rfl⟩
      · cases h
    · cases h
  · rintro ⟨kind, msb, lsb, rfl, rfl⟩
    simp [formatD]

theorem formatF_eq_ok_iff {j : Instr} {operands : List Byte} :
    formatF operands = .ok j ↔
      ∃ ft dst payload, operands = ft :: (dst.toList ++ payload) ∧ Instr.frmBuild ft dst payload = j := by
  constructor
  · intro h
    unfold formatF at h
    split at h
    · cases h
      exact ⟨_, _, _, rfl, rfl⟩
    · cases h
  · rintro ⟨ft, dst, payload, rfl, rfl⟩
    exact decode_encode (.frmBuild ft dst payload)

/-! ### Both directions (R81) -/

/-- A packet that decodes has the opcode of one arm of the opcode map (R74), and that arm's format reads nothing but the
operands of its own instruction. -/
theorem eq_encode_of_decode {cmd : Packet} {i : Instr} (h : decode cmd = .ok i) : cmd = encode i := by
  cases cmd with
  | nil => cases h
  | cons op operands =>
    simp only [decode] at h
    split_ifs at h with hop hop hop hop hop hop hop hop hop hop <;> subst hop
    · obtain ⟨rfl, rfl⟩ := formatZ_eq_ok_iff.mp h; rfl
    · obtain ⟨rfl, rfl⟩ := formatZ_eq_ok_iff.mp h; rfl
    · obtain ⟨b, rfl, rfl⟩ := formatB_eq_ok_iff.mp h; rfl
    · obtain ⟨rfl, rfl⟩ := formatZ_eq_ok_iff.mp h; rfl
    · obtain ⟨b, rfl, rfl⟩ := formatB_eq_ok_iff.mp h; rfl
    · obtain ⟨kind, msb, lsb, rfl, rfl⟩ := formatD_eq_ok_iff.mp h; rfl
    · obtain ⟨ft, dst, payload, rfl, rfl⟩ := formatF_eq_ok_iff.mp h; rfl
    · obtain ⟨rfl, rfl⟩ := formatZ_eq_ok_iff.mp h; rfl
    · obtain ⟨rfl, rfl⟩ := formatZ_eq_ok_iff.mp h; rfl
    · obtain ⟨rfl, rfl⟩ := formatZ_eq_ok_iff.mp h; rfl

theorem decode_eq_ok_iff {cmd : Packet} {i : Instr} : decode cmd = .ok i ↔ cmd = encode i :=
  ⟨eq_encode_of_decode, fun h => h ▸ decode_encode i⟩

/-! ### The errors of a format (R78) -/

theorem formatD_of_length_ne {operands : List Byte} (h : operands.length ≠ 3) : formatD operands = .error .wrongLength := by
  match operands, h with
  | [], _ | [_], _ | [_, _], _ | _ :: _ :: _ :: _ :: _, _ => rfl
  | [_, _, _], h => exact absurd rfl h

theorem formatD_of_kind_gt {k : Byte} (hk : 0x01 < k) (msb lsb : Byte) :
    formatD [k, msb, lsb] = .error .kindOutOfRange := by
  have hnone : kindOfByte k = none :=
    Option.eq_none_iff_forall_ne_some.mpr fun kind h =>
      absurd ((exists_kindOfByte_iff k).mp ⟨kind, h⟩) (BitVec.not_le.mpr hk)
  simp only [formatD, hnone]

theorem formatF_of_length_lt {operands : List Byte} (h : operands.length < 9) : formatF operands = .error .wrongLength := by
  unfold formatF
  split
  · simp only [List.length_cons] at h
    omega
  · rfl

/-- Nine operand bytes of `FRM.BUILD` are the frame type and the destination, and the others are the payload (R77). -/
theorem decode_frmBuild_of_length_le {operands : List Byte} (h : 9 ≤ operands.length) :
    ∃ ft dst payload, decode (0x30 :: operands) = .ok (.frmBuild ft dst payload) ∧ payload.length = operands.length - 9 := by
  obtain ⟨i, hi⟩ := (exists_formatF_iff operands).mpr h
  obtain ⟨ft, dst, payload, rfl, rfl⟩ := formatF_eq_ok_iff.mp hi
  exact ⟨ft, dst, payload, hi, by simp⟩

end Sys2Proof

namespace Sys2Proof.WellFormed

/-! ### The masks of the opcode table (R85) -/

/-- The mask of an opcode keeps every bit. -/
theorem and_opcodeMask (op : Byte) : op &&& 255#8 = op := BitVec.and_allOnes

/-- The mask of a kind lets exactly the two codes through. -/
theorem and_kindMask_eq_zero_iff (k : Byte) : k &&& 254#8 = 0#8 ↔ k ≤ 1#8 := by
  revert k
  decide

/-- A row's opcode, the first byte of its pattern, is compared in full, so a packet that selects the row begins with it. -/
theorem head?_eq_of_selectedBy {cmd : Packet} : ∀ r ∈ rows, r.selectedBy cmd = true → r.pattern.head? = cmd.head? := by
  cases cmd with
  | nil => simp [rows, Row.selectedBy, LengthRule.admits]
  | cons op operands => simp +contextual [rows, Row.selectedBy, LengthRule.admits, and_opcodeMask]

/-! ### Which packets of an opcode select a row (R85) -/

section

variable {op : Byte} (operands : List Byte)

theorem packet_opcodeZ_iff (hop : op ∈ ([0x01, 0x10, 0x12, 0x31, 0x32, 0x33] : List Byte)) :
    packet (op :: operands) = true ↔ operands.length = 0 := by
  simp only [List.mem_cons, List.not_mem_nil, or_false] at hop
  rcases hop with rfl | rfl | rfl | rfl | rfl | rfl <;>
    simp [packet, rows, Row.selectedBy, LengthRule.admits]

theorem packet_opcodeB_iff (hop : op ∈ ([0x11, 0x13] : List Byte)) :
    packet (op :: operands) = true ↔ operands.length = 1 := by
  simp only [List.mem_cons, List.not_mem_nil, or_false] at hop
  rcases hop with rfl | rfl <;> simp [packet, rows, Row.selectedBy, LengthRule.admits]

theorem packet_opcodeD_iff :
    packet (0x20 :: operands) = true ↔ operands.length = 3 ∧ ∀ k ∈ operands[0]?, k ≤ 0x01 := by
  cases operands with
  | nil => simp [packet, rows, Row.selectedBy, LengthRule.admits]
  | cons k operands => simp [packet, rows, Row.selectedBy, LengthRule.admits, and_kindMask_eq_zero_iff]

theorem packet_opcodeF_iff : packet (0x30 :: operands) = true ↔ 9 ≤ operands.length := by
  simp [packet, rows, Row.selectedBy, LengthRule.admits]

/-- No row has the opcode, and a selected row has the packet's. -/
theorem packet_unassignedOpcode
    (hop : op ∉ ([0x01, 0x10, 0x11, 0x12, 0x13, 0x20, 0x30, 0x31, 0x32, 0x33] : List Byte)) :
    packet (op :: operands) = false := by
  rw [← Bool.not_eq_true, packet, List.any_eq_true]
  rintro ⟨r, hr, hsel⟩
  have hmem : r.pattern.head? ∈ rows.map (fun r => r.pattern.head?) := List.mem_map_of_mem hr
  rw [head?_eq_of_selectedBy r hr hsel] at hmem
  exact hop (by simpa [rows] using hmem)

end

/-- The decoder, written from R78, accepts the packets the opcode table's test accepts: both say the same of each opcode's
operands. -/
theorem exists_decode_iff_packet (cmd : Packet) : (∃ i, decode cmd = .ok i) ↔ packet cmd = true := by
  cases cmd with
  | nil => simp [decode, packet, rows, Row.selectedBy, LengthRule.admits]
  | cons op operands =>
    by_cases hZ : op ∈ ([0x01, 0x10, 0x12, 0x31, 0x32, 0x33] : List Byte)
    · rw [packet_opcodeZ_iff operands hZ, exists_decode_opcodeZ_iff operands hZ]
    by_cases hB : op ∈ ([0x11, 0x13] : List Byte)
    · rw [packet_opcodeB_iff operands hB, exists_decode_opcodeB_iff operands hB]
    by_cases hD : op = 0x20
    · rw [hD, packet_opcodeD_iff, exists_decode_opcodeD_iff]
    by_cases hF : op = 0x30
    · rw [hF, packet_opcodeF_iff, exists_decode_opcodeF_iff]
    have hop : op ∉ ([0x01, 0x10, 0x11, 0x12, 0x13, 0x20, 0x30, 0x31, 0x32, 0x33] : List Byte) := by
      simp_all
    simp [packet_unassignedOpcode operands hop, decode_unassignedOpcode operands hop]

/-! ### No packet selects two rows (R85) -/

theorem rows_opcodes_nodup : (rows.map (fun r => r.pattern.head?)).Nodup := by decide

theorem filter_selectedBy_length_le_one (cmd : Packet) : (rows.filter (fun r => r.selectedBy cmd)).length ≤ 1 := by
  calc (rows.filter (fun r => r.selectedBy cmd)).length
    _ = rows.countP (fun r => r.selectedBy cmd) := List.countP_eq_length_filter.symm
    _ ≤ rows.countP (fun r => r.pattern.head? == cmd.head?) :=
        List.countP_mono_left fun r hr h => beq_iff_eq.mpr (head?_eq_of_selectedBy r hr h)
    _ = (rows.map (fun r => r.pattern.head?)).count cmd.head? := by rw [List.count, List.countP_map]; rfl
    _ ≤ 1 := List.nodup_iff_count_le_one.mp rows_opcodes_nodup _

end Sys2Proof.WellFormed

namespace Sys2Proof.Machine

/-! ### The errors of an instruction, after those of the packet (R220) -/

/-- A payload of more than 8 bytes is too large, however long it is (R166, R171). -/
theorem exec_frmBuild_of_lt_length {payload : List Byte} (h : 8 < payload.length) (ft : Byte) (dst : Vector Byte 8)
    (s : State) :
    exec (.frmBuild ft dst payload) s = .next (answered [0x02] (dropFrame { s with ptl := true })) := by
  obtain ⟨hle, -⟩ | ⟨-, e⟩ := execFrmBuild_cases ft dst payload s
  · omega
  · exact e

/-- With no frame held `FRM.NEXT` answers `NO_FRAME`, wherever the read position stands (R168). -/
theorem exec_frmNext_of_no_frame {s : State} (hv : s.fvalid = false) : exec .frmNext s = .next (answered [0x03] s) := by
  simp [exec, execFrmNext, hv]

/-! ### The obligations -/

/-- Settles O2: the packet of an instruction decodes to it, and each format reads only the operands of its own instructions. -/
theorem decodeInvertsEncode : Obligations.DecodeInvertsEncode := by
  unfold Obligations.DecodeInvertsEncode
  exact fun _ _ => decode_eq_ok_iff

/-- Settles O3: decoder and table say the same of each opcode's operands, and the ten rows have ten opcodes. -/
theorem decoderAcceptsWhatTheTableSelects : Obligations.DecoderAcceptsWhatTheTableSelects := by
  unfold Obligations.DecoderAcceptsWhatTheTableSelects
  exact fun cmd => ⟨WellFormed.exists_decode_iff_packet cmd, WellFormed.filter_selectedBy_length_le_one cmd⟩

/-- Settles O5: the formats test the length first, a build is decoded before its payload is measured, and `FRM.NEXT` asks for a
frame before it compares the position. -/
theorem errorPriority : Obligations.ErrorPriority := by
  unfold Obligations.ErrorPriority
  refine ⟨rfl, fun op operands hop => decode_unassignedOpcode operands hop, fun _ h => formatD_of_length_ne h,
    fun k msb lsb hk => formatD_of_kind_gt hk msb lsb, fun _ h => formatF_of_length_lt h, fun s operands rest hlen hm => ?_,
    fun s hv _ => exec_frmNext_of_no_frame hv⟩
  obtain ⟨ft, dst, payload, hd, hpayload⟩ := decode_frmBuild_of_length_le (operands := operands) (by omega)
  have hstep := (step_command hm).trans (serveCommand_of_decode hd _)
  rw [exec_frmBuild_of_lt_length (by omega)] at hstep
  exact ⟨_, hstep, rfl⟩

/-- Settles O1: the written-out packets are the packets of their instructions. -/
theorem writtenPacketsDecode : Obligations.WrittenPacketsDecode := by
  unfold Obligations.WrittenPacketsDecode
  exact ⟨decode_encode .sysStatus, decode_encode .crcInit, decode_encode (.crcUpdate 0x68), decode_encode .crcRead,
    decode_encode (.crcVerify 0x7C), decode_encode (.decDecode .temperature 0x4E 0x85),
    decode_encode (.decDecode .humidity 0x68 0x3A),
    decode_encode (.frmBuild 0x00 #v[0x00, 0x13, 0xA2, 0x00, 0x40, 0x64, 0x03, 0x75] [0x4E, 0x85]),
    decode_encode .frmLen, decode_encode .frmNext, decode_encode .frmRewind⟩

end Sys2Proof.Machine
end

section
/-!
PROOFS. What one instruction can answer (spec/60_exceptions.md, spec/42_frame.md R168): an equation for each branch of the Frame
Encoder's commands, the stops, and which unit's state an instruction reads and writes (spec/00_scope.md R2, spec/10_state.md R23,
R27, R29, R33).
-/

namespace Sys2Proof.Machine

/-! ### The branches of the Frame Encoder's commands (R167 to R169) -/

section

variable {s : State}

theorem exec_frmLen_of_frame (hv : s.fvalid = true) : exec .frmLen s = .next (answered [0x00, offsetByte s.flen] s) := by
  simp [exec, execFrmLen, hv]

theorem exec_frmLen_of_no_frame (hv : s.fvalid = false) : exec .frmLen s = .next (answered [0x03] s) := by
  simp [exec, execFrmLen, hv]

theorem exec_frmRewind_of_frame (hv : s.fvalid = true) :
    exec .frmRewind s = .next (answered [0x00] { s with rptr := 0 }) := by
  simp [exec, execFrmRewind, hv]

theorem exec_frmRewind_of_no_frame (hv : s.fvalid = false) : exec .frmRewind s = .next (answered [0x03] s) := by
  simp [exec, execFrmRewind, hv]

theorem exec_frmNext_at_end (hv : s.fvalid = true) (hr : s.rptr = s.flen) :
    exec .frmNext s = .next (answered [0x04] s) := by
  simp [exec, execFrmNext, hv, hr]

theorem exec_frmNext_of_memRead_ok {b : Byte} (hv : s.fvalid = true) (hr : s.rptr ≠ s.flen)
    (hb : memRead s.rptr.toNat s = .ok b) :
    exec .frmNext s = .next (answered [0x00, b] { s with rptr := s.rptr + 1 }) := by
  simp [exec, execFrmNext, hv, hr, hb]

end

/-! ### When an instruction stops (R12, R51) -/

/-- The two ways a read stops: an offset that does not exist, and a cell that holds no value. -/
theorem memRead_error_iff (a : Nat) (s : State) (f : Fault) :
    memRead a s = .error f ↔
      (f = .noSuchCell ∧ 23 ≤ a) ∨ (f = .cellHoldsNoValue ∧ a < 23 ∧ s.fbuf.read a = none) := by
  unfold memRead
  split
  · rename_i ha
    have hlt : ¬ 23 ≤ a := by simpa [Config.frameCap] using ha
    cases hread : s.fbuf.read a with
    | some b => simp [hlt]
    | none => simp [hlt, Nat.lt_of_not_le hlt, eq_comm]
  · rename_i ha
    have hge : 23 ≤ a := by simpa [Config.frameCap] using ha
    simp [hge, Nat.not_lt.mpr hge, eq_comm]

theorem exec_answers_of_ne_frmNext {i : Instr} (hi : i ≠ .frmNext) (s : State) : ∃ t, exec i s = .next t := by
  cases i with
  | frmNext => exact absurd rfl hi
  | sysStatus | crcInit | crcUpdate | crcRead | crcVerify => exact ⟨_, rfl⟩
  | decDecode kind msb lsb => rcases execDecDecode_cases kind msb lsb s with ⟨-, e⟩ | ⟨-, e⟩ <;> exact ⟨_, e⟩
  | frmBuild ft dst payload => rcases execFrmBuild_cases ft dst payload s with ⟨-, e⟩ | ⟨-, e⟩ <;> exact ⟨_, e⟩
  | frmLen => rcases execFrmLen_cases s with ⟨-, e⟩ | ⟨-, e⟩ <;> exact ⟨_, e⟩
  | frmRewind => rcases execFrmRewind_cases s with ⟨-, e⟩ | ⟨-, e⟩ <;> exact ⟨_, e⟩

theorem exec_frmNext_fault_iff (s : State) (f : Fault) :
    exec .frmNext s = .fault f ↔ s.fvalid = true ∧ s.rptr ≠ s.flen ∧ memRead s.rptr.toNat s = .error f := by
  obtain ⟨hv, e⟩ | ⟨hv, hr, e⟩ | ⟨hv, hr, b, hb, e⟩ | ⟨hv, hr, g, hg, e⟩ := execFrmNext_cases s <;> rw [exec, e]
  · simp [hv]
  · simp [hr]
  · simp [hb]
  · simp [hv, hr, hg]

theorem exec_ne_refused (i : Instr) (s : State) (r : Refusal) : exec i s ≠ .refused r := by
  by_cases hi : i = .frmNext
  · subst hi
    obtain ⟨-, e⟩ | ⟨-, -, e⟩ | ⟨-, -, b, -, e⟩ | ⟨-, -, g, -, e⟩ := execFrmNext_cases s <;> (rw [exec, e]; simp)
  · obtain ⟨t, e⟩ := exec_answers_of_ne_frmNext hi s
    simp [e]

/-- In a state that meets the invariant `FRM.NEXT` finds the next byte of the held frame (R35, R168). -/
theorem Inv.exec_frmNext {s : State} (hi : Inv s) (hv : s.fvalid = true) (hr : s.rptr ≠ s.flen) :
    ∃ b, (heldFrame s)[s.rptr.toNat]? = some b ∧
      exec .frmNext s = .next (answered [0x00, b] { s with rptr := s.rptr + 1 }) := by
  have hlt : s.rptr.toNat < s.flen.toNat :=
    Nat.lt_of_le_of_ne hi.rptr_le fun h => hr (BitVec.eq_of_toNat_eq h)
  obtain ⟨b, hcell, hbyte⟩ := hi.read_held hv hlt
  exact ⟨b, hbyte, exec_frmNext_of_memRead_ok hv hr (memRead_of_read hi.memory hcell)⟩

/-- In a state that meets the invariant every instruction answers (R260). -/
theorem Inv.exec_answers {s : State} (hi : Inv s) (i : Instr) : ∃ t, exec i s = .next t := by
  by_cases hnext : i = .frmNext
  · subst hnext
    by_cases hv : s.fvalid = true
    · by_cases hr : s.rptr = s.flen
      · exact ⟨_, exec_frmNext_at_end hv hr⟩
      · obtain ⟨b, -, e⟩ := hi.exec_frmNext hv hr
        exact ⟨_, e⟩
    · exact ⟨_, exec_frmNext_of_no_frame (Bool.not_eq_true _ ▸ hv)⟩
  · exact exec_answers_of_ne_frmNext hnext s

/-! ### What an instruction reads (R2, R23, R33) -/

/-- The Frame Encoder and `SYS.STATUS` do the same whatever `crc` and the moves to come are, and leave both. -/
theorem exec_frame_or_system {i : Instr} {s t : State} (hu : unitOf i = .frame ∨ unitOf i = .system)
    (h : exec i s = .next t) (crc : Byte) (moves : List HostMove) :
    exec i { s with crc := crc, moves := moves } = .next { t with crc := crc, moves := moves } := by
  cases i with
  | crcInit | crcUpdate | crcRead | crcVerify | decDecode => simp [unitOf] at hu
  | sysStatus => cases h; rfl
  | frmBuild ft dst payload =>
    by_cases hn : payload.length ≤ 8
    · rw [exec_frmBuild_of_length_le hn] at h ⊢; cases h; rfl
    · rw [exec_frmBuild_of_lt_length (Nat.lt_of_not_le hn)] at h ⊢; cases h; rfl
  | frmLen =>
    obtain ⟨hv, e⟩ | ⟨hv, e⟩ := execFrmLen_cases s <;> (rw [exec, e] at h; cases h)
    · exact exec_frmLen_of_frame hv
    · exact exec_frmLen_of_no_frame hv
  | frmNext =>
    obtain ⟨hv, e⟩ | ⟨hv, hr, e⟩ | ⟨hv, hr, b, hb, e⟩ | ⟨-, -, f, -, e⟩ := execFrmNext_cases s <;>
      (rw [exec, e] at h; cases h)
    · exact exec_frmNext_of_no_frame hv
    · exact exec_frmNext_at_end hv hr
    · exact exec_frmNext_of_memRead_ok hv hr hb
  | frmRewind =>
    obtain ⟨hv, e⟩ | ⟨hv, e⟩ := execFrmRewind_cases s <;> (rw [exec, e] at h; cases h)
    · exact exec_frmRewind_of_frame hv
    · exact exec_frmRewind_of_no_frame hv

/-- The Checksum Engine answers from `crc` and changes nothing else. -/
theorem exec_checksum {i : Instr} (hu : unitOf i = .checksum) (crc : Byte) :
    ∃ packet crc', ∀ s : State, s.crc = crc → exec i s = .next (answered packet { s with crc := crc' }) := by
  cases i with
  | sysStatus | decDecode | frmBuild | frmLen | frmNext | frmRewind => simp [unitOf] at hu
  | crcInit => exact ⟨_, _, fun s _ => exec_crcInit s⟩
  | crcUpdate b => exact ⟨_, _, fun s hs => hs ▸ exec_crcUpdate b s⟩
  | crcRead => exact ⟨[0x00, crc], crc, fun s hs => by subst hs; exact exec_crcRead s⟩
  | crcVerify e =>
    exact ⟨[0x00, if e = crc then 0x01 else 0x00], crc, fun s hs => by subst hs; exact exec_crcVerify e s⟩

/-- `DEC.DECODE` answers from its operands alone and changes nothing. -/
theorem exec_reading {i : Instr} (hu : unitOf i = .reading) : ∃ packet, ∀ s : State, exec i s = .next (answered packet s) := by
  cases i with
  | sysStatus | crcInit | crcUpdate | crcRead | crcVerify | frmBuild | frmLen | frmNext | frmRewind => simp [unitOf] at hu
  | decDecode kind msb lsb =>
    by_cases hs : statusBit lsb = expectedFor kind
    · exact ⟨_, exec_decDecode_of_statusBit_eq hs msb⟩
    · exact ⟨_, exec_decDecode_of_statusBit_ne hs msb⟩

theorem SameButUnspecified.refl (s : State) : SameButUnspecified s s := ⟨rfl, fun _ _ _ => rfl⟩

/-- A read below the end of the held frame is the same in two buffers that agree there. -/
theorem memRead_congr {s t : State} {a : Nat} (h : t.fbuf.read a = s.fbuf.read a) : memRead a t = memRead a s := by
  simp only [memRead, h]

/-- Every instruction answers alike from two buffers that agree on the held frame, and leaves them so: `FRM.NEXT` reads below
`flen` only, and a build overwrites the buffer. -/
theorem exec_sameButUnspecified {i : Instr} {s s' t : State} (hle : s.rptr.toNat ≤ s.flen.toNat)
    (hsame : SameButUnspecified s s') (h : exec i s = .next t) :
    ∃ t', exec i s' = .next t' ∧ t'.responses = t.responses ∧ SameButUnspecified t t' := by
  obtain ⟨hs', hread⟩ := hsame
  generalize s'.fbuf = fbuf at hs' hread
  subst hs'
  cases i with
  | sysStatus | crcInit | crcUpdate | crcRead | crcVerify => cases h; exact ⟨_, rfl, rfl, rfl, hread⟩
  | decDecode kind msb lsb =>
    obtain ⟨packet, hanswer⟩ := exec_reading (i := .decDecode kind msb lsb) rfl
    rw [hanswer] at h
    cases h
    exact ⟨_, hanswer _, rfl, rfl, hread⟩
  | frmBuild ft dst payload =>
    by_cases hn : payload.length ≤ 8
    · rw [exec_frmBuild_of_length_le hn] at h ⊢; cases h; exact ⟨_, rfl, rfl, .refl _⟩
    · rw [exec_frmBuild_of_lt_length (Nat.lt_of_not_le hn)] at h ⊢; cases h; exact ⟨_, rfl, rfl, .refl _⟩
  | frmLen =>
    obtain ⟨hv, e⟩ | ⟨hv, e⟩ := execFrmLen_cases s <;> (rw [exec, e] at h; cases h)
    · exact ⟨_, exec_frmLen_of_frame hv, rfl, rfl, hread⟩
    · exact ⟨_, exec_frmLen_of_no_frame hv, rfl, rfl, hread⟩
  | frmNext =>
    obtain ⟨hv, e⟩ | ⟨hv, hr, e⟩ | ⟨hv, hr, b, hb, e⟩ | ⟨-, -, f, -, e⟩ := execFrmNext_cases s <;>
      (rw [exec, e] at h; cases h)
    · exact ⟨_, exec_frmNext_of_no_frame hv, rfl, rfl, hread⟩
    · exact ⟨_, exec_frmNext_at_end hv hr, rfl, rfl, hread⟩
    · have hlt : s.rptr.toNat < s.flen.toNat :=
        Nat.lt_of_le_of_ne hle fun heq => hr (BitVec.eq_of_toNat_eq heq)
      have hb' : memRead s.rptr.toNat { s with fbuf := fbuf } = .ok b := (memRead_congr (hread hv _ hlt)).trans hb
      exact ⟨_, exec_frmNext_of_memRead_ok hv hr hb', rfl, rfl, hread⟩
  | frmRewind =>
    obtain ⟨hv, e⟩ | ⟨hv, e⟩ := execFrmRewind_cases s <;> (rw [exec, e] at h; cases h)
    · exact ⟨_, exec_frmRewind_of_frame hv, rfl, rfl, hread⟩
    · exact ⟨_, exec_frmRewind_of_no_frame hv, rfl, rfl, hread⟩

/-! ### What an instruction writes (R2, R27, R29) -/

/-- Only `CRC.INIT` and `CRC.UPDATE` write `crc`: any other instruction feeds no byte. -/
theorem exec_crc {i : Instr} {s t : State} (h : exec i s = .next t) (hi : i ≠ .crcInit) :
    t.crc = (fedByte i).elim s.crc (crc8Update s.crc) := by
  cases i with
  | crcInit => exact absurd rfl hi
  | crcUpdate | crcRead | crcVerify => cases h; rfl
  | decDecode kind msb lsb =>
    obtain ⟨packet, hanswer⟩ := exec_reading (i := .decDecode kind msb lsb) rfl
    rw [hanswer] at h
    cases h
    rfl
  | sysStatus | frmBuild | frmLen | frmNext | frmRewind =>
    have hsame := h.symm.trans (exec_frame_or_system (by simp [unitOf]) h s.crc s.moves)
    rw [Host.Outcome.next.injEq] at hsame
    rw [hsame]
    rfl

/-- Only the Checksum Engine is fed bytes. -/
theorem fedByte_eq_none {i : Instr} (hu : unitOf i ≠ .checksum) : fedByte i = none := by
  cases i with
  | crcUpdate b => exact absurd rfl hu
  | _ => rfl

/-- An instruction of another unit leaves the Frame Encoder's items. -/
theorem exec_sameFrameUnit {i : Instr} {s t : State} (h : exec i s = .next t) (hu : unitOf i ≠ .frame) :
    SameFrameUnit s t := by
  rcases exec_frameUnit_cases h with hsame | ⟨_, _, _, rfl, -⟩ | ⟨_, _, _, rfl, -⟩ | ⟨rfl, -⟩ | ⟨rfl, -⟩
  · exact hsame
  all_goals exact absurd rfl hu

/-- `ptl` after an instruction: set by a build of more than 8 payload bytes, and otherwise as it was (R27). -/
theorem exec_ptl_iff {i : Instr} {s t : State} (h : exec i s = .next t) :
    t.ptl = true ↔ s.ptl = true ∨ ∃ ft dst payload, i = .frmBuild ft dst payload ∧ 8 < payload.length := by
  constructor
  · intro hp
    rcases exec_frameUnit_cases h with hsame | ⟨_, _, _, -, -, hsame⟩ | ⟨ft, dst, payload, hi, hn, -⟩ | ⟨-, -, -, hsame⟩ |
      ⟨-, -, hsame⟩
    · exact .inl (hsame.ptl_eq.symm.trans hp)
    · exact .inl (hsame.ptl_eq.symm.trans hp)
    · exact .inr ⟨ft, dst, payload, hi, hn⟩
    · exact .inl (hsame.ptl_eq.symm.trans hp)
    · exact .inl (hsame.ptl_eq.symm.trans hp)
  · rintro (hp | ⟨ft, dst, payload, rfl, hn⟩)
    · exact exec_keeps_ptl hp h
    · rw [exec_frmBuild_of_lt_length hn] at h
      cases h
      rfl

theorem SameFrameUnit.fbuf_eq {s t : State} (h : SameFrameUnit s t) : t.fbuf = s.fbuf := by
  obtain ⟨hfbuf, -⟩ := h
  exact hfbuf

/-- No instruction but a build writes `fbuf` (R22, R50). -/
theorem exec_fbuf {i : Instr} {s t : State} (h : exec i s = .next t) (hi : ∀ ft dst payload, i ≠ .frmBuild ft dst payload) :
    t.fbuf = s.fbuf := by
  rcases exec_frameUnit_cases h with hsame | ⟨_, _, _, rfl, -⟩ | ⟨_, _, _, rfl, -⟩ | ⟨-, -, -, hsame⟩ | ⟨-, -, hsame⟩
  · exact hsame.fbuf_eq
  · exact absurd rfl (hi _ _ _)
  · exact absurd rfl (hi _ _ _)
  · exact hsame.fbuf_eq
  · exact hsame.fbuf_eq

/-! ### The obligations -/

/-- Settles O17: only `FRM.NEXT` reads `fbuf`, and it stops exactly where the read does. -/
theorem onlyFrmNextCanStop : Obligations.OnlyFrmNextCanStop := by
  unfold Obligations.OnlyFrmNextCanStop
  refine fun i s => ⟨exec_ne_refused i s, fun f => ?_⟩
  by_cases hi : i = .frmNext
  · simp only [hi, exec_frmNext_fault_iff, memRead_error_iff, true_and]
  · obtain ⟨t, e⟩ := exec_answers_of_ne_frmNext hi s
    simp [e, hi]

/-- Settles O18: a failed build sets `ptl`, and nothing else changes it. -/
theorem ptlIsSticky : Obligations.PtlIsSticky := by
  unfold Obligations.PtlIsSticky
  exact fun _ _ _ h => exec_ptl_iff h

/-- Settles O19: the buffer as a whole is left by every other instruction. -/
theorem onlyBuildWritesTheBuffer : Obligations.OnlyBuildWritesTheBuffer := by
  unfold Obligations.OnlyBuildWritesTheBuffer
  intro i s t h hi a
  rw [exec_fbuf h hi]

/-- Settles O20: the Frame Encoder's items change by its own commands only, and `crc` by `CRC.INIT` and `CRC.UPDATE` only. -/
theorem unitsWriteOnlyTheirOwnState : Obligations.UnitsWriteOnlyTheirOwnState := by
  unfold Obligations.UnitsWriteOnlyTheirOwnState
  refine fun i s t h => ⟨exec_sameFrameUnit h, fun hu => ?_⟩
  rw [exec_crc h (by rintro rfl; exact hu rfl), fedByte_eq_none hu, Option.elim_none]

/-- Settles O21: the Checksum Engine answers from `crc`, the Frame Encoder and `SYS.STATUS` from all but `crc`, and `DEC.DECODE`
from its operands. -/
theorem unitsReadOnlyTheirOwnState : Obligations.UnitsReadOnlyTheirOwnState := by
  unfold Obligations.UnitsReadOnlyTheirOwnState
  refine fun i s s' t h hresp => ⟨fun hu hcrc => ?_, fun hu hsame => ?_, fun hu => ?_⟩
  · obtain ⟨packet, crc, hanswer⟩ := exec_checksum hu s.crc
    rw [hanswer s rfl] at h
    cases h
    exact ⟨_, hanswer s' hcrc, rfl, by simp [hresp]⟩
  · have hs' : s' = { s with crc := s'.crc, moves := s'.moves } := by
      obtain ⟨hfbuf, hflen, hrptr, hfvalid, hptl⟩ := hsame
      rw [← hfbuf, ← hflen, ← hrptr, ← hfvalid, ← hptl, ← hresp]
    rw [hs']
    exact ⟨_, exec_frame_or_system hu h _ _, .refl t, rfl⟩
  · obtain ⟨packet, hanswer⟩ := exec_reading hu
    rw [hanswer s] at h
    cases h
    exact ⟨_, hanswer s', by simp [hresp]⟩

/-- Settles O23: each of the five answers from what it leaves unchanged, and a response is not among that. -/
theorem readingCommandsAreIdempotent : Obligations.ReadingCommandsAreIdempotent := by
  unfold Obligations.ReadingCommandsAreIdempotent
  rintro i s (hi | ⟨e, rfl⟩ | ⟨kind, msb, lsb, rfl⟩)
  · simp only [List.mem_cons, List.not_mem_nil, or_false] at hi
    rcases hi with rfl | rfl | rfl
    · exact ⟨_, exec_crcRead s, exec_crcRead _⟩
    · cases hv : s.fvalid
      · exact ⟨_, exec_frmLen_of_no_frame hv, exec_frmLen_of_no_frame hv⟩
      · exact ⟨_, exec_frmLen_of_frame hv, exec_frmLen_of_frame hv⟩
    · exact ⟨_, exec_sysStatus s, exec_sysStatus _⟩
  · exact ⟨_, exec_crcVerify e s, exec_crcVerify e _⟩
  · obtain ⟨packet, hanswer⟩ := exec_reading (i := .decDecode kind msb lsb) rfl
    exact ⟨packet, hanswer s, hanswer _⟩

end Sys2Proof.Machine
end

section
/-!
PROOFS. What one step does (spec/20_memory.md R58, spec/70_reset_and_hazards.md R250 to R252): idle, a command and its one
response, a reset; that it always completes in the invariant; runs of host moves from reset; and that no step looks at a cell the
spec leaves unspecified (R23).
-/

namespace Sys2Proof.Machine

/-! ### One step -/

theorem step_idle {s : State} (h : s.moves = []) : step s = .next s := by
  simp [step, h, idle]

theorem step_of_decode {s : State} {cmd : Packet} {rest : List HostMove} {i : Instr} (hm : s.moves = .command cmd :: rest)
    (hd : decode cmd = .ok i) : step s = exec i { s with moves := rest } := by
  rw [step_command hm, serveCommand_of_decode hd]

theorem serveCommand_moves {cmd : Packet} {s t : State} (h : serveCommand cmd s = .next t) : t.moves = s.moves := by
  cases hd : decode cmd with
  | ok i => rw [serveCommand_of_decode hd] at h; exact exec_moves h
  | error e => rw [serveCommand_of_illegal hd] at h; cases h; rfl

theorem statusCode_mem (st : Status) : statusCode st ∈ ([0x00, 0x01, 0x02, 0x03, 0x04, 0xFF] : List Byte) := by
  cases st <;> decide

/-- A command packet is answered by one response: `OK` with result bytes, or the code of an error alone (R70, R75). -/
theorem serveCommand_responds {cmd : Packet} {s t : State} (h : serveCommand cmd s = .next t) :
    ∃ (status : Byte) (results : List Byte), t.responses = s.responses ++ [status :: results] ∧
      status ∈ ([0x00, 0x01, 0x02, 0x03, 0x04, 0xFF] : List Byte) ∧ (status ≠ 0x00 → results = []) := by
  obtain ⟨results, hok⟩ | ⟨e, he⟩ := serveCommand_ok_or_raise h
  · exact ⟨0x00, results, hok, by decide, fun hne => absurd rfl hne⟩
  · exact ⟨statusCode (errorStatus e), [], raise_responses he, statusCode_mem _, fun _ => rfl⟩

/-- A step takes the host's next move, and adds a response when it is a command and none when it is a reset. -/
theorem step_takes_move {s t : State} {move : HostMove} {rest : List HostMove} (hm : s.moves = move :: rest)
    (h : step s = .next t) :
    t.moves = rest ∧ t.responses.length = s.responses.length + if isCommand move then 1 else 0 := by
  cases move with
  | command cmd =>
    rw [step_command hm] at h
    obtain ⟨status, results, hresp, -⟩ := serveCommand_responds h
    exact ⟨serveCommand_moves h, by simp [hresp, isCommand]⟩
  | reset abandoned =>
    rw [step_reset hm] at h
    cases h
    exact ⟨rfl, rfl⟩

/-- From a state that meets the invariant a step completes (R260): no instruction stops there. -/
theorem Inv.step_completes {s : State} (hi : Inv s) : ∃ t, step s = .next t := by
  rcases step_cases s with ⟨-, e⟩ | ⟨_, rest, i, -, -, e⟩ | ⟨_, rest, _, -, -, e⟩ | ⟨_, rest, -, e⟩
  · exact ⟨_, e⟩
  · obtain ⟨t, ht⟩ := Inv.exec_answers (s := { s with moves := rest }) (hi.of_sameFrameUnit (.refl s)) i
    exact ⟨t, e.trans ht⟩
  · exact ⟨_, e⟩
  · exact ⟨_, e⟩

/-! ### Runs (R61, R252) -/

/-- A run of the host's moves, from any state that meets the invariant, completes in one and answers each command once. -/
theorem Inv.run_completes (moves : List HostMove) {s : State} (hi : Inv s) (hm : s.moves = moves) :
    ∃ t, run moves.length s = .next t ∧ Inv t ∧ t.moves = [] ∧
      t.responses.length = s.responses.length + (moves.filter isCommand).length := by
  induction moves generalizing s with
  | nil => exact ⟨s, rfl, hi, hm, rfl⟩
  | cons move rest ih =>
    obtain ⟨u, hu⟩ := hi.step_completes
    obtain ⟨hmoves, hcount⟩ := step_takes_move hm hu
    obtain ⟨t, ht, hinv, hnil, hlen⟩ := ih (step_keeps_inv hi hu) hmoves
    refine ⟨t, (run_succ_of_next hu).trans ht, hinv, hnil, ?_⟩
    rw [hlen, hcount, List.filter_cons]
    cases isCommand move
    · rfl
    · simp only [if_true, List.length_cons]
      omega

/-! ### Unspecified cells (R23) -/

theorem SameButUnspecified.withMoves {s s' : State} (h : SameButUnspecified s s') (moves : List HostMove) :
    SameButUnspecified (withMoves moves s) (withMoves moves s') :=
  ⟨congrArg (Machine.withMoves moves) h.1, h.2⟩

theorem SameButUnspecified.answered {s s' : State} (h : SameButUnspecified s s') (packet : Packet) :
    SameButUnspecified (answered packet s) (answered packet s') :=
  ⟨congrArg (Machine.answered packet) h.1, h.2⟩

/-- A reset leaves no trace of the buffer. -/
theorem SameButUnspecified.applyReset_eq {s s' : State} (h : SameButUnspecified s s') : applyReset s' = applyReset s := by
  rw [h.1]
  rfl

/-- A step on the same move runs the same instruction on two buffers that agree on the held frame, or does not look at the buffer
at all. -/
theorem step_sameButUnspecified {s s' t : State} (hle : s.rptr.toNat ≤ s.flen.toNat) (hsame : SameButUnspecified s s')
    (h : step s = .next t) : ∃ t', step s' = .next t' ∧ t'.responses = t.responses ∧ SameButUnspecified t t' := by
  have hmoves : s'.moves = s.moves := by rw [hsame.1]
  have hresp : s'.responses = s.responses := by rw [hsame.1]
  rcases step_cases s with ⟨hm, e⟩ | ⟨cmd, rest, i, hm, hd, e⟩ | ⟨cmd, rest, ill, hm, hd, e⟩ | ⟨abandoned, rest, hm, e⟩ <;>
    rw [e] at h <;> rw [← hmoves] at hm
  · cases h
    exact ⟨s', step_idle hm, hresp, hsame⟩
  · rw [step_of_decode hm hd]
    exact exec_sameButUnspecified (s := withMoves rest s) hle (hsame.withMoves rest) h
  · cases h
    rw [step_command hm, serveCommand_of_illegal hd]
    exact ⟨_, rfl, by simp [hresp], (hsame.withMoves rest).answered [0xFF]⟩
  · cases h
    rw [step_reset hm]
    refine ⟨_, rfl, hresp, ?_⟩
    rw [show applyReset { s' with moves := rest } = _ from (hsame.withMoves rest).applyReset_eq]
    exact .refl _

/-! ### The obligations -/

/-- Settles O22: the first state's read position lies within the held frame, and there the two buffers agree. -/
theorem unspecifiedCellsAreUnobservable : Obligations.UnspecifiedCellsAreUnobservable := by
  unfold Obligations.UnspecifiedCellsAreUnobservable
  exact fun _ _ _ hi _ hsame h => step_sameButUnspecified hi.rptr_le hsame h

/-- Settles O10: the reset state meets the invariant, so every command answers; and its `crc` is the initial value of the
checksum, so the updates need no `CRC.INIT`. -/
theorem everyCommandIsDefinedAfterReset : Obligations.EveryCommandIsDefinedAfterReset := by
  unfold Obligations.EveryCommandIsDefinedAfterReset
  refine ⟨State.reset_inv.exec_answers, rfl, rfl, fun i hi => ?_, fun data => ?_⟩
  · simp only [List.mem_cons, List.not_mem_nil, or_false] at hi
    rcases hi with rfl | rfl | rfl
    · exact exec_frmLen_of_no_frame rfl
    · exact exec_frmNext_of_no_frame rfl
    · exact exec_frmRewind_of_no_frame rfl
  · exact ⟨_, run_crcUpdates data (rest := []) (by simp), rfl⟩

/-- Settles O11: the one response is what serving the packet appends. -/
theorem oneResponsePerCommand : Obligations.OneResponsePerCommand := by
  unfold Obligations.OneResponsePerCommand
  intro s t cmd rest hm h
  rw [step_command hm] at h
  obtain ⟨status, results, hresp, hmem, herr⟩ := serveCommand_responds h
  exact ⟨status, results, hresp, hmem, herr, serveCommand_moves h⟩

/-- Settles O15: only `FRM.NEXT` could stop, and under the invariant the cell it reads holds a byte of the frame. -/
theorem invariantStatesNeverStop : Obligations.InvariantStatesNeverStop := by
  unfold Obligations.InvariantStatesNeverStop
  exact fun _ hi => hi.step_completes

/-- Settles O16: the reset state meets the invariant, every step completes and keeps it. -/
theorem everyRunCompletes : Obligations.EveryRunCompletes := by
  unfold Obligations.EveryRunCompletes
  intro moves
  have hi : Inv (withMoves moves State.reset) := State.reset_inv.of_sameFrameUnit (.refl State.reset)
  obtain ⟨t, ht, hinv, hnil, hlen⟩ := hi.run_completes moves rfl
  exact ⟨t, ht, hinv, hnil, by simpa [State.reset] using hlen⟩

/-- Settles O6: the port decodes the packet and runs its instruction, with nothing around it. -/
theorem stepRunsTheDecodedInstruction : Obligations.StepRunsTheDecodedInstruction := by
  unfold Obligations.StepRunsTheDecodedInstruction
  exact fun _ _ _ _ hm hd => step_of_decode hm hd

/-- Settles O7: with no move the block is idle. -/
theorem idleStepChangesNothing : Obligations.IdleStepChangesNothing := by
  unfold Obligations.IdleStepChangesNothing
  exact fun _ h => step_idle h

/-- Settles O8: both kinds of reset move apply the reset state and leave the two ports. -/
theorem resetGivesTheResetValues : Obligations.ResetGivesTheResetValues := by
  unfold Obligations.ResetGivesTheResetValues
  exact fun s _ rest hm => ⟨_, step_reset hm, rfl, rfl, rfl, rfl, rfl, rfl, rfl⟩

/-- Settles O13: the reset state holds no frame and lists no cell. -/
theorem resetSatisfiesTheInvariant : Obligations.ResetSatisfiesTheInvariant := by
  unfold Obligations.ResetSatisfiesTheInvariant
  exact State.reset_inv

end Sys2Proof.Machine
end

section
/-!
PROOFS. The laws of the CRC (spec/40_crc.md): linearity and its consequences (R110), the bit-serial form (R101), the remainder of
polynomial division (R112), and the sequences around `crc` (R107).
-/

namespace Sys2Proof.Machine

/-! ### The shift is linear and injective (R110) -/

/-- What a step xors in: the polynomial when the tested bit is set. -/
def polyIf (bit : Bool) : Byte := if bit then Config.crcPoly else 0x00

theorem polyIf_xor (x y : Bool) : polyIf (x ^^ y) = polyIf x ^^^ polyIf y := by
  cases x <;> cases y <;> decide

theorem crcShift_eq (r : Byte) : crcShift r = r <<< 1 ^^^ polyIf (r.getLsbD 7) := by
  unfold crcShift polyIf
  split
  · rfl
  · exact BitVec.xor_zero.symm

theorem crcShift_xor (x y : Byte) : crcShift (x ^^^ y) = crcShift x ^^^ crcShift y := by
  simp only [crcShift_eq, BitVec.getLsbD_xor, BitVec.shiftLeft_xor_distrib, polyIf_xor]
  ac_rfl

theorem crcShifts_xor (count : Nat) (x y : Byte) : crcShifts count (x ^^^ y) = crcShifts count x ^^^ crcShifts count y := by
  induction count generalizing x y with
  | zero => rfl
  | succ k ih => simp only [crcShifts, crcShift_xor, ih]

theorem crcShifts_succ (count : Nat) (r : Byte) : crcShifts (count + 1) r = crcShift (crcShifts count r) := by
  rw [crcShifts_eq_iterate, crcShifts_eq_iterate, Function.iterate_succ_apply']

/-- The polynomial's constant term makes the low bit a copy of the bit shifted out, which is why no bit is lost. -/
theorem crcShift_getLsbD_zero (r : Byte) : (crcShift r).getLsbD 0 = r.getLsbD 7 := by
  rw [crcShift_eq, BitVec.getLsbD_xor, BitVec.getLsbD_shiftLeft]
  cases r.getLsbD 7 <;> rfl

theorem crcShift_injective : Function.Injective crcShift := by
  intro x y h
  have htop : x.getLsbD 7 = y.getLsbD 7 := by
    rw [← crcShift_getLsbD_zero, h, crcShift_getLsbD_zero]
  rw [crcShift_eq, crcShift_eq, htop, BitVec.xor_left_inj] at h
  apply BitVec.eq_of_getLsbD_eq
  intro k hk
  by_cases h7 : k = 7
  · rw [h7, htop]
  · have hbit := congrArg (fun v => v.getLsbD (k + 1)) h
    simpa only [BitVec.getLsbD_shiftLeft, show k + 1 < 8 by omega, show ¬ k + 1 < 1 by omega, decide_true, decide_false,
      Bool.not_false, Bool.true_and, Nat.add_sub_cancel] using hbit

theorem crcShifts_injective (count : Nat) : Function.Injective (crcShifts count) := by
  rw [funext (crcShifts_eq_iterate count)]
  exact crcShift_injective.iterate count

/-! ### The update and the checksum (R102, R110) -/

theorem crc8Update_xor (c d a b : Byte) : crc8Update (c ^^^ d) (a ^^^ b) = crc8Update c a ^^^ crc8Update d b := by
  rw [crc8Update, crc8Update, crc8Update, ← crcShifts_xor]
  congr 1
  ac_rfl

theorem crc8Update_injective_byte (c : Byte) : Function.Injective (fun b => crc8Update c b) := fun _ _ h =>
  (BitVec.xor_right_inj _).mp (crcShifts_injective 8 h)

theorem crc8Update_injective_register (b : Byte) : Function.Injective (fun c => crc8Update c b) := fun _ _ h =>
  (BitVec.xor_left_inj _).mp (crcShifts_injective 8 h)

theorem crc8_append (a b : List Byte) : crc8 (a ++ b) = b.foldl crc8Update (crc8 a) := List.foldl_append

theorem crc8_concat (data : List Byte) (b : Byte) : crc8 (data ++ [b]) = crc8Update (crc8 data) b := crc8_append data [b]

/-- Feeding the same bytes keeps two different registers different. -/
theorem foldl_crc8Update_injective (data : List Byte) : Function.Injective (fun c => data.foldl crc8Update c) := by
  induction data with
  | nil => exact Function.injective_id
  | cons b rest ih => exact ih.comp (crc8Update_injective_register b)

/-- Linearity (L1), from any two registers. -/
theorem foldl_crc8Update_xor {a b : List Byte} (h : a.length = b.length) (c d : Byte) :
    (List.zipWith (· ^^^ ·) a b).foldl crc8Update (c ^^^ d) = a.foldl crc8Update c ^^^ b.foldl crc8Update d := by
  induction a generalizing b c d with
  | nil =>
    obtain rfl : b = [] := List.eq_nil_of_length_eq_zero h.symm
    rfl
  | cons x a ih =>
    cases b with
    | nil => cases h
    | cons y b =>
      simp only [List.zipWith_cons_cons, List.foldl_cons, crc8Update_xor]
      exact ih (Nat.succ.inj h) _ _

/-- Zero bytes keep a zero register (L3): they are equal to it. -/
theorem crc8_replicate_zero (n : Nat) : crc8 (List.replicate n 0x00) = 0x00 := by
  induction n with
  | zero => rfl
  | succ n ih => rw [List.replicate_succ', crc8_concat, ih, crc8Update_self]

/-! ### The bit-serial form (R101) -/

/-- One step of the bit-serial form: bit 7 - `i` of the data joins the bit that is tested. -/
def bitSerialStep (b r : Byte) (i : Nat) : Byte :=
  if (r.getLsbD 7 ^^ b.getLsbD (7 - i)) = true then (r <<< 1) ^^^ 0x31 else r <<< 1

theorem bitSerialUpdate_eq_foldl (c b : Byte) : bitSerialUpdate c b = (List.range 8).foldl (bitSerialStep b) c := rfl

theorem bitSerialStep_eq (b r : Byte) (i : Nat) :
    bitSerialStep b r i = r <<< 1 ^^^ polyIf (r.getLsbD 7 ^^ b.getLsbD (7 - i)) := by
  unfold bitSerialStep polyIf
  split
  · rfl
  · exact BitVec.xor_zero.symm

/-- A register that also holds the data bits not yet used, shifted up, does the bit-serial step. -/
theorem crcShift_xor_shiftLeft (r b : Byte) {i : Nat} (hi : i < 8) :
    crcShift (r ^^^ b <<< i) = bitSerialStep b r i ^^^ b <<< (i + 1) := by
  have htop : (b <<< i).getLsbD 7 = b.getLsbD (7 - i) := by
    simp only [BitVec.getLsbD_shiftLeft, show ¬ 7 < i by omega, decide_false, Bool.not_false, Bool.and_true]
    rfl
  rw [crcShift_eq, bitSerialStep_eq, BitVec.getLsbD_xor, htop, BitVec.shiftLeft_xor_distrib, BitVec.shiftLeft_add]
  ac_rfl

/-- After `n` steps the two forms differ by the data bits still to come. -/
theorem crcShifts_xor_eq_foldl_bitSerialStep (c b : Byte) {n : Nat} (hn : n ≤ 8) :
    crcShifts n (c ^^^ b) = (List.range n).foldl (bitSerialStep b) c ^^^ b <<< n := by
  induction n with
  | zero => simp [crcShifts]
  | succ n ih =>
    rw [crcShifts_succ, ih (by omega), crcShift_xor_shiftLeft _ _ (by omega), List.range_succ, List.foldl_append]
    rfl

theorem crc8Update_eq_bitSerialUpdate (c b : Byte) : crc8Update c b = bitSerialUpdate c b := by
  rw [crc8Update, crcShifts_xor_eq_foldl_bitSerialStep c b (Nat.le_refl 8), BitVec.shiftLeft_eq_zero (Nat.le_refl 8),
    BitVec.xor_zero, bitSerialUpdate_eq_foldl]

/-! ### Polynomial division (R100, R112) -/

/-- A coefficient of the dividend as a byte. -/
def coefficient (bit : Bool) : Byte := if bit then 0x01 else 0x00

theorem coefficient_getLsbD (bit : Bool) (k : Nat) : (coefficient bit).getLsbD k = (decide (k = 0) && bit) := by
  cases bit
  · simp [coefficient]
  · simp [coefficient, BitVec.getLsbD_one]

/-- The bit a shift leaves free is the coefficient's own. -/
theorem shiftLeft_or_coefficient (r : Byte) (bit : Bool) : r <<< 1 ||| coefficient bit = r <<< 1 ^^^ coefficient bit := by
  revert r bit
  decide

/-- One step of long division is one shift, with the next coefficient entering below. -/
theorem divisionStep_eq (r : Byte) (bit : Bool) : divisionStep r bit = crcShift r ^^^ coefficient bit := by
  have h : divisionStep r bit = (r <<< 1 ||| coefficient bit) ^^^ polyIf (r.getLsbD 7) := by
    unfold divisionStep polyIf
    dsimp only
    split
    · rfl
    · exact BitVec.xor_zero.symm
  rw [h, shiftLeft_or_coefficient, crcShift_eq]
  ac_rfl

/-- The top bits of a byte, shifted down, take up the next bit without meeting the polynomial. -/
theorem crcShift_ushiftRight (b : Byte) (n : Nat) : crcShift (b >>> (n + 1)) ^^^ coefficient (b.getLsbD n) = b >>> n := by
  have htop : (b >>> (n + 1)).getLsbD 7 = false := by
    rw [BitVec.getLsbD_ushiftRight]
    exact BitVec.getLsbD_of_ge _ _ (by omega)
  rw [crcShift_eq, htop]
  apply BitVec.eq_of_getLsbD_eq
  intro k hk
  rw [BitVec.getLsbD_xor, BitVec.getLsbD_xor, BitVec.getLsbD_shiftLeft, coefficient_getLsbD, BitVec.getLsbD_ushiftRight,
    BitVec.getLsbD_ushiftRight, show (polyIf false).getLsbD k = false from BitVec.getLsbD_zero]
  cases k with
  | zero => simp
  | succ k => simp [hk, show n + 1 + k = n + (k + 1) by omega]

/-- Dividing on by the first `n` bits of a byte shifts the remainder and brings those bits in below. -/
theorem foldl_divisionStep_bits (r b : Byte) {n : Nat} (hn : n ≤ 8) :
    ((List.range n).map (fun i => b.getLsbD (7 - i))).foldl divisionStep r = crcShifts n r ^^^ b >>> (8 - n) := by
  induction n with
  | zero => 
    rw [BitVec.ushiftRight_eq_zero (by omega), BitVec.xor_zero]
    rfl
  | succ n ih =>
    have hbits := crcShift_ushiftRight b (7 - n)
    rw [show 7 - n + 1 = 8 - n by omega] at hbits
    rw [List.range_succ, List.map_append, List.foldl_append, ih (by omega), List.map_singleton, List.foldl_cons,
      List.foldl_nil, divisionStep_eq, crcShift_xor, BitVec.xor_assoc, hbits, crcShifts_succ, Nat.sub_add_eq 8 n 1,
      Nat.sub_right_comm]

theorem polynomialRemainder_concat (data : List Byte) (b : Byte) :
    polynomialRemainder (data ++ [b]) = crcShifts 8 (polynomialRemainder data) ^^^ b := by
  rw [polynomialRemainder, List.flatMap_append, List.foldl_append, List.flatMap_singleton]
  exact foldl_divisionStep_bits _ b (Nat.le_refl 8)

/-- Eight more zero coefficients multiply by x^8, and the register holds that remainder (R112). -/
theorem crc8_eq_crcShifts_polynomialRemainder (data : List Byte) : crc8 data = crcShifts 8 (polynomialRemainder data) := by
  induction data using List.reverseRecOn with
  | nil => rfl
  | append_singleton data b ih => rw [crc8_concat, polynomialRemainder_concat, ← ih]; rfl

/-! ### Sequences around `crc` (R107) -/

/-- A packet other than `CRC.INIT`'s changes `crc` by the byte it feeds, if it feeds one; an illegal packet feeds none. -/
theorem serveCommand_crc {cmd : Packet} {s t : State} (h : serveCommand cmd s = .next t) (hcmd : cmd ≠ [0x10]) :
    t.crc = ((decode cmd).toOption.bind fedByte).elim s.crc (crc8Update s.crc) := by
  cases hd : decode cmd with
  | ok i =>
    have hi : i ≠ .crcInit := by
      rintro rfl
      exact hcmd (eq_encode_of_decode hd)
    rw [serveCommand_of_decode hd] at h
    exact exec_crc h hi
  | error e =>
    rw [serveCommand_of_illegal hd] at h
    cases h
    rfl

/-- A run of packets without `CRC.INIT` folds the update over the bytes they feed. -/
theorem run_commands_crc (cmds : List Packet) {s t : State} {rest : List HostMove}
    (hm : s.moves = cmds.map HostMove.command ++ rest) (hinit : [0x10] ∉ cmds) (h : run cmds.length s = .next t) :
    t.crc = (cmds.filterMap (fun cmd => (decode cmd).toOption.bind fedByte)).foldl crc8Update s.crc := by
  induction cmds generalizing s with
  | nil => cases h; rfl
  | cons cmd cmds ih =>
    rw [List.mem_cons, not_or] at hinit
    obtain ⟨hcmd, hrest⟩ := hinit
    cases hu : step s with
    | next u =>
      have hserve := (step_command hm).symm.trans hu
      rw [List.length_cons, run_succ_of_next hu] at h
      rw [ih (serveCommand_moves hserve) hrest h, serveCommand_crc hserve (Ne.symm hcmd), List.filterMap_cons]
      cases (decode cmd).toOption.bind fedByte <;> rfl
    | fault f => simp [run, hu] at h
    | refused r => simp [run, hu] at h

/-! ### The obligations -/

/-- Settles O29: after all eight steps no data bit is left over between the two forms. -/
theorem updateEqualsBitSerialForm : Obligations.UpdateEqualsBitSerialForm := by
  unfold Obligations.UpdateEqualsBitSerialForm
  exact crc8Update_eq_bitSerialUpdate

/-- Settles O31: the remainder before the zero byte is appended, shifted eight times, is the checksum. -/
theorem checksumIsPolynomialRemainder : Obligations.ChecksumIsPolynomialRemainder := by
  unfold Obligations.ChecksumIsPolynomialRemainder
  intro data
  rw [crc8_eq_crcShifts_polynomialRemainder, polynomialRemainder_concat]
  exact BitVec.xor_zero.symm

/-- Settles O32: linearity from the initial register, which is the exclusive or of itself with itself. -/
theorem checksumIsLinear : Obligations.ChecksumIsLinear := by
  unfold Obligations.ChecksumIsLinear
  exact fun a b h => foldl_crc8Update_xor h Config.crcInit Config.crcInit

/-- Settles O33: the checksum byte equals the register it is fed to, and zero bytes leave the initial register. -/
theorem checksumResidueAndLeadingZeros : Obligations.ChecksumResidueAndLeadingZeros := by
  unfold Obligations.ChecksumResidueAndLeadingZeros
  refine ⟨fun data => ?_, fun n data => ?_, crc8_replicate_zero⟩
  · rw [crc8_concat, crc8Update_self]
  · rw [crc8_append, crc8_replicate_zero]
    rfl

/-- Settles O34: the shift is injective on a finite type, and the bytes after the changed one keep the registers apart. -/
theorem oneChangedByteIsDetected : Obligations.OneChangedByteIsDetected := by
  unfold Obligations.OneChangedByteIsDetected
  refine ⟨fun c => Finite.injective_iff_bijective.mp (crc8Update_injective_byte c),
    fun b => Finite.injective_iff_bijective.mp (crc8Update_injective_register b), fun before after x y hne h => hne ?_⟩
  rw [crc8_append, crc8_append] at h
  exact crc8Update_injective_byte _ (foldl_crc8Update_injective after h)

/-- Settles O35: after the bytes are fed the register is the checksum, and `CRC.READ` answers it. -/
theorem checksumSequenceComputesCrc8 : Obligations.ChecksumSequenceComputesCrc8 := by
  unfold Obligations.ChecksumSequenceComputesCrc8
  intro data s rest hm
  have hfeed : s.moves = feedBytes data ++ (issue .crcRead :: rest) := by
    simpa [crcChecksum] using hm
  rw [run_add_of_next (k := 1) (run_feedBytes data hfeed), run_succ_of_next ((step_issue rfl).trans (exec_crcRead _)),
    run_zero]
  rfl

/-- Settles O37: `CRC.INIT` sets the initial register, and each packet after it feeds its byte or none. -/
theorem interleavedCommandsDoNotDisturbChecksum : Obligations.InterleavedCommandsDoNotDisturbChecksum := by
  unfold Obligations.InterleavedCommandsDoNotDisturbChecksum
  intro s t cmds rest hm hinit h
  rw [run_succ_of_next ((step_issue hm).trans (exec_crcInit _))] at h
  exact run_commands_crc cmds rfl hinit h

end Sys2Proof.Machine
end

section
/-!
PROOFS. Reading a frame out (spec/42_frame.md R168, R170, R175): `FRM.NEXT` byte by byte, a run of it over the whole frame, and
the sequence `FRM.DRAIN`.
-/

namespace Sys2Proof.Machine

/-! ### One `FRM.NEXT` (R168) -/

/-- The next position as a number: an offset's successor is the offset of the successor. -/
theorem rptr_add_one (r : Offset) : r + 1 = BitVec.ofNat 5 (r.toNat + 1) := by
  apply BitVec.eq_of_toNat_eq
  rw [BitVec.toNat_add, BitVec.toNat_ofNat]
  rfl

/-! ### The whole frame -/

/-- In a state that meets the invariant a step on `FRM.NEXT` answers the next byte of the held frame and moves on by one. -/
theorem Inv.step_frmNext {s : State} {rest : List HostMove} (hi : Inv s) (hv : s.fvalid = true) (hr : s.rptr ≠ s.flen)
    (hm : s.moves = issue .frmNext :: rest) :
    ∃ b t, (heldFrame s)[s.rptr.toNat]? = some b ∧ step s = .next t ∧ Inv t ∧
      t = { s with rptr := s.rptr + 1, moves := rest, responses := s.responses ++ [[0x00, b]] } := by
  have htaken : Inv { s with moves := rest } := hi.of_sameFrameUnit (.refl s)
  obtain ⟨b, hb, e⟩ := htaken.exec_frmNext hv hr
  have hstep := (step_issue hm).trans e
  exact ⟨b, _, hb, hstep, step_keeps_inv hi hstep, rfl⟩

theorem step_frmNext_at_end {s : State} {rest : List HostMove} (hv : s.fvalid = true) (hr : s.rptr = s.flen)
    (hm : s.moves = issue .frmNext :: rest) : step s = .next (answered [0x04] { s with moves := rest }) :=
  (step_issue hm).trans (exec_frmNext_at_end hv hr)

/-- What a run of `FRM.NEXT` answers from a position on: each byte of the held frame from there, with `OK`. -/
theorem run_frmNexts (n : Nat) {s : State} {rest : List HostMove} (hi : Inv s) (hv : s.fvalid = true)
    (hn : s.rptr.toNat + n = s.flen.toNat) (hm : s.moves = List.replicate n (issue .frmNext) ++ rest) :
    run n s = .next
      { s with
        rptr := s.flen
        moves := rest
        responses := s.responses ++ ((heldFrame s).drop s.rptr.toNat).map (fun b => [0x00, b]) } := by
  induction n generalizing s with
  | zero =>
    obtain ⟨-, hlen, -⟩ := hi.frame hv
    have hr : s.flen = s.rptr := BitVec.eq_of_toNat_eq hn.symm
    obtain rfl : s.moves = rest := hm
    rw [List.drop_eq_nil_of_le (by omega), List.map_nil, List.append_nil, run_zero]
    exact congrArg (fun r => Host.Outcome.next { s with rptr := r }) hr.symm
  | succ n ih =>
    have hne : s.rptr ≠ s.flen := fun h => by rw [h] at hn; omega
    have hsucc : (s.rptr + 1).toNat = s.rptr.toNat + 1 := by
      have := hi.flen_le
      bv_omega
    have hleft : (s.rptr + 1).toNat + n = s.flen.toNat := by omega
    obtain ⟨b, t, hb, hstep, hinv, rfl⟩ := hi.step_frmNext hv hne hm
    have hdrop : (heldFrame s).drop s.rptr.toNat = b :: (heldFrame s).drop (s.rptr + 1).toNat := by
      obtain ⟨hlt, hget⟩ := List.getElem?_eq_some_iff.mp hb
      rw [hsucc, ← hget, List.drop_eq_getElem_cons hlt]
    rw [run_succ_of_next hstep, ih hinv hv hleft rfl, hdrop, List.append_assoc]
    rfl

/-- A read-out from offset 0 answers the whole held frame and, one command later, `END_OF_FRAME` (R168). -/
theorem run_readOut {s : State} {rest : List HostMove} (hi : Inv s) (hv : s.fvalid = true) (hr : s.rptr = 0)
    (hm : s.moves = List.replicate (s.flen.toNat + 1) (issue .frmNext) ++ rest) :
    run (s.flen.toNat + 1) s = .next
      { s with
        rptr := s.flen
        moves := rest
        responses := s.responses ++ (heldFrame s).map (fun b => [0x00, b]) ++ [[0x04]] } := by
  have hm' : s.moves = List.replicate s.flen.toNat (issue .frmNext) ++ (issue .frmNext :: rest) := by
    rw [hm, List.replicate_succ', List.append_assoc]
    rfl
  have hread := run_frmNexts s.flen.toNat hi hv (by simp [hr]) hm'
  rw [show (heldFrame s).drop s.rptr.toNat = heldFrame s by rw [hr]; rfl] at hread
  rw [run_add_of_next hread]
  exact (run_succ_of_next (step_frmNext_at_end (s := { s with
    rptr := s.flen
    moves := issue .frmNext :: rest
    responses := s.responses ++ (heldFrame s).map (fun b => [0x00, b]) }) hv rfl rfl)).trans (run_zero _)

/-- A step on a build that succeeds starts the read-out of the built frame, whatever the state was (R166). -/
theorem step_frmBuild {ft : Byte} {dst : Vector Byte 8} {payload : List Byte} {s : State} {rest : List HostMove}
    (h : payload.length ≤ 8) (hm : s.moves = issue (.frmBuild ft dst payload) :: rest) :
    ∃ t, step s = .next t ∧ Inv t ∧ t.fvalid = true ∧ t.rptr = 0 ∧ heldFrame t = buildFrame ft dst payload ∧
      t.flen.toNat = 15 + payload.length ∧ t.moves = rest ∧ t.crc = s.crc ∧
      t.responses = s.responses ++ [[0x00, BitVec.ofNat 8 (15 + payload.length)]] := by
  have hexec := exec_frmBuild_of_length_le h ft dst { s with moves := rest }
  obtain ⟨hframe, hflen⟩ := held_of_exec_frmBuild h hexec
  rw [buildFrame_length] at hflen
  exact ⟨_, (step_issue hm).trans hexec,
    (inv_holdFrame (wellFormedFrame_buildFrame ft dst h) { s with moves := rest }).of_sameFrameUnit (.refl _), rfl, rfl,
    hframe, hflen, rfl, rfl, rfl⟩

/-! ### The obligations -/

/-- Settles O52: a failed build is `raise PayloadTooLarge`, which sets `ptl` and drops the frame. -/
theorem oversizedBuildIsRejected : Obligations.OversizedBuildIsRejected := by
  unfold Obligations.OversizedBuildIsRejected
  exact fun ft dst payload s h => ⟨[], exec_frmBuild_of_lt_length h ft dst s⟩

/-- Settles O56: a read answers the byte of an existing cell that holds one, and the invariant puts the frame's byte there. -/
theorem frmNextReturnsTheNextByte : Obligations.FrmNextReturnsTheNextByte := by
  unfold Obligations.FrmNextReturnsTheNextByte
  intro s
  rw [← rptr_add_one]
  exact ⟨fun b hv hr hlt hb => exec_frmNext_of_memRead_ok hv hr ((memRead_ok_iff _ s b).mpr ⟨hlt, hb⟩), exec_frmNext_at_end,
    exec_frmNext_of_no_frame, fun hi hv hr => hi.exec_frmNext hv hr⟩

/-- Settles O58: the build leaves a state that meets the invariant with the read position at 0, and the read-out follows. -/
theorem buildThenReadOutReturnsTheFrame : Obligations.BuildThenReadOutReturnsTheFrame := by
  unfold Obligations.BuildThenReadOutReturnsTheFrame
  intro ft dst payload s rest h hm
  obtain ⟨t, hstep, hinv, hv, hr, hframe, hflen, hmoves, hcrc, hresp⟩ := step_frmBuild h hm
  have hread := run_readOut (rest := rest) hinv hv hr (by rw [hmoves, hflen, Nat.add_right_comm]; rfl)
  rw [hframe, hflen, hresp] at hread
  rw [show 17 + payload.length = 15 + payload.length + 1 + 1 by omega, run_succ_of_next hstep, hread]
  exact ⟨_, rfl, rfl, hcrc, rfl, rfl⟩

/-- Settles O59: `FRM.REWIND` puts the read position at 0, and the read-out follows. -/
theorem drainYieldsTheHeldFrame : Obligations.DrainYieldsTheHeldFrame := by
  unfold Obligations.DrainYieldsTheHeldFrame
  refine fun s rest hi => ⟨fun hv hm => ?_, fun hv hm => ?_⟩
  · have hstart : Inv { s with rptr := 0 } := hi.setRptr hv (Nat.zero_le _)
    rw [run_succ_of_next ((step_issue hm).trans (exec_frmRewind_of_frame hv))]
    exact run_readOut (hstart.of_sameFrameUnit (.refl _)) hv rfl rfl
  · exact (step_issue hm).trans (exec_frmRewind_of_no_frame hv)

end Sys2Proof.Machine
end

section
/-!
PROOFS. `f32` is round to nearest, ties to even (spec/00_scope.md R14): the rounded significand is the nearest one in its binade,
no binary32 value of another binade is nearer, and the sign is that of the number.
-/

namespace Sys2Proof.Machine

/-! ### The nearest natural -/

/-- A number half way between two naturals is rounded to the even one. -/
theorem roundHalfEven_even_of_tie {p q d : Nat} (hq : 0 < q) (h : 2 * p = 2 * (d * q) + q) : roundHalfEven p q % 2 = 0 := by
  have hd : p / q = d := Nat.div_eq_of_lt_le (by omega) (by rw [Nat.add_mul]; omega)
  refine roundHalfEven_tie ?_
  rw [hd, h, Nat.add_mul, Nat.mul_assoc, Nat.one_mul]

/-- No natural is nearer to `p / q` than the rounded one, and where another is as near the rounded one is even. -/
theorem roundHalfEven_nearest (p : Nat) {q : Nat} (hq : 0 < q) (n : Nat) :
    ((roundHalfEven p q * q : Nat) - (p : Int)).natAbs ≤ ((n * q : Nat) - (p : Int)).natAbs ∧
    (((roundHalfEven p q * q : Nat) - (p : Int)).natAbs = ((n * q : Nat) - (p : Int)).natAbs →
      n = roundHalfEven p q ∨ roundHalfEven p q % 2 = 0) := by
  obtain ⟨hlo, hhi⟩ := roundHalfEven_near p hq
  rcases Nat.lt_trichotomy n (roundHalfEven p q) with hn | rfl | hn
  · have hstep : (n + 1) * q ≤ roundHalfEven p q * q := Nat.mul_le_mul_right q hn
    rw [Nat.add_mul] at hstep
    exact ⟨by omega, fun h => .inr (roundHalfEven_even_of_tie (d := n) hq (by omega))⟩
  · exact ⟨Nat.le_refl _, fun _ => .inl rfl⟩
  · have hstep : (roundHalfEven p q + 1) * q ≤ n * q := Nat.mul_le_mul_right q hn
    rw [Nat.add_mul] at hstep
    exact ⟨by omega, fun h => .inr (roundHalfEven_even_of_tie (d := roundHalfEven p q) hq (by omega))⟩

/-! ### The rounded significand and its last place -/

/-- The exponent of the last place of `p / q` rounded, in units of 2^-149. -/
def lastPlace (p q : Nat) : Nat := Nat.log2 (p * 2 ^ 149 / q) - 23

/-- The rounded significand of `p / q`, hidden bit included. -/
def significand (p q : Nat) : Nat := roundHalfEven (p * 2 ^ 149) (q * 2 ^ lastPlace p q)

theorem roundMagnitude_eq (p q : Nat) :
    roundMagnitude p q =
      if lastPlace p q * 2 ^ 23 + significand p q < 0x7F800000 then lastPlace p q * 2 ^ 23 + significand p q
      else 0x7F800000 := rfl

/-- A value with a lower last place lies below the binade that begins at 2^23 places. -/
theorem lt_of_lower_place {n j k : Nat} (hn : n < 2 ^ 24) (hj : j < k) : n * 2 ^ j < 2 ^ 23 * 2 ^ k := by
  calc n * 2 ^ j
    _ < 2 ^ 24 * 2 ^ j := Nat.mul_lt_mul_of_pos_right hn (Nat.two_pow_pos j)
    _ = 2 ^ 23 * 2 ^ (j + 1) := by rw [Nat.pow_succ 2 j]; ring
    _ ≤ 2 ^ 23 * 2 ^ k := Nat.mul_le_mul_left _ (Nat.pow_le_pow_right (by decide) hj)

section

variable (p : Nat) {q : Nat} (hq : 0 < q)
include hq

/-- Above the lowest binade the number has 24 bits before its last place. -/
theorem le_of_lastPlace_ne_zero (hk : lastPlace p q ≠ 0) : 2 ^ 23 * 2 ^ lastPlace p q * q ≤ p * 2 ^ 149 := by
  unfold lastPlace at hk ⊢
  have hu : p * 2 ^ 149 / q ≠ 0 := by
    intro h
    rw [h] at hk
    exact hk (by decide)
  rw [← Nat.pow_add, show 23 + (Nat.log2 (p * 2 ^ 149 / q) - 23) = Nat.log2 (p * 2 ^ 149 / q) by omega]
  exact (Nat.le_div_iff_mul_le hq).mp (Nat.log2_self_le hu)

theorem lt_lastPlace : p * 2 ^ 149 < 2 ^ 24 * (q * 2 ^ lastPlace p q) := by
  have hlt : p * 2 ^ 149 / q < 2 ^ 24 * 2 ^ lastPlace p q := by
    refine Nat.lt_of_lt_of_le Nat.lt_log2_self ?_
    rw [← Nat.pow_add]
    exact Nat.pow_le_pow_right (by decide) (by unfold lastPlace; omega)
  calc p * 2 ^ 149
    _ < 2 ^ 24 * 2 ^ lastPlace p q * q := (Nat.div_lt_iff_lt_mul hq).mp hlt
    _ = 2 ^ 24 * (q * 2 ^ lastPlace p q) := by ring

/-- The significand has at most 24 bits, or is 2^24 after a carry, and is normal above the lowest binade. -/
theorem significand_bounds : significand p q ≤ 2 ^ 24 ∧ (lastPlace p q ≠ 0 → 2 ^ 23 ≤ significand p q) := by
  have hpos : 0 < q * 2 ^ lastPlace p q := Nat.mul_pos hq (Nat.two_pow_pos _)
  obtain ⟨hnear, hnear'⟩ := roundHalfEven_near (p * 2 ^ 149) hpos
  have hlt := lt_lastPlace p hq
  refine ⟨?_, fun hk => ?_⟩
  · by_contra hc
    have : (2 ^ 24 + 1) * (q * 2 ^ lastPlace p q) ≤ significand p q * (q * 2 ^ lastPlace p q) :=
      Nat.mul_le_mul_right _ (by omega)
    unfold significand at this
    omega
  · have hle : 2 ^ 23 * (q * 2 ^ lastPlace p q) ≤ p * 2 ^ 149 := by
      calc 2 ^ 23 * (q * 2 ^ lastPlace p q)
        _ = 2 ^ 23 * 2 ^ lastPlace p q * q := by ring
        _ ≤ p * 2 ^ 149 := le_of_lastPlace_ne_zero p hq hk
    by_contra hc
    have : (significand p q + 1) * (q * 2 ^ lastPlace p q) ≤ 2 ^ 23 * (q * 2 ^ lastPlace p q) :=
      Nat.mul_le_mul_right _ (by omega)
    rw [Nat.add_mul, significand] at this
    omega

/-! ### No binary32 magnitude is nearer -/

/-- The rounded magnitude is as near to `p / q` as any with 24 significant bits, and where another is as near the significand is
even. -/
theorem significand_nearest {n : Nat} (hn : n < 2 ^ 24) (j : Nat) :
    ((significand p q * 2 ^ lastPlace p q * q : Nat) - ((p * 2 ^ 149 : Nat) : Int)).natAbs ≤
      ((n * 2 ^ j * q : Nat) - ((p * 2 ^ 149 : Nat) : Int)).natAbs ∧
    (((significand p q * 2 ^ lastPlace p q * q : Nat) - ((p * 2 ^ 149 : Nat) : Int)).natAbs =
      ((n * 2 ^ j * q : Nat) - ((p * 2 ^ 149 : Nat) : Int)).natAbs →
      n * 2 ^ j = significand p q * 2 ^ lastPlace p q ∨ significand p q % 2 = 0) := by
  have hpos : 0 < q * 2 ^ lastPlace p q := Nat.mul_pos hq (Nat.two_pow_pos _)
  have hplace (m : Nat) : m * 2 ^ lastPlace p q * q = m * (q * 2 ^ lastPlace p q) := by ring
  rcases Nat.lt_or_ge j (lastPlace p q) with hj | hj
  · obtain ⟨hbest, -⟩ := roundHalfEven_nearest (p * 2 ^ 149) hpos (2 ^ 23)
    have hlow : n * 2 ^ j * q < 2 ^ 23 * 2 ^ lastPlace p q * q :=
      Nat.mul_lt_mul_of_pos_right (lt_of_lower_place hn hj) hq
    have hle := le_of_lastPlace_ne_zero p hq (by omega)
    rw [hplace] at hlow hle
    rw [hplace, significand]
    omega
  · have hcoarse : n * 2 ^ j = n * 2 ^ (j - lastPlace p q) * 2 ^ lastPlace p q := by
      rw [Nat.mul_assoc, ← Nat.pow_add, Nat.sub_add_cancel hj]
    obtain ⟨hbest, htie⟩ := roundHalfEven_nearest (p * 2 ^ 149) hpos (n * 2 ^ (j - lastPlace p q))
    rw [hcoarse, hplace, hplace, significand]
    exact ⟨hbest, fun h => (htie h).imp_left fun e => by rw [e]⟩

end

/-! ### The pattern of the result -/

/-- A significand and its place, put together as exponent and fraction bits, are read back as their product. -/
theorem magnitude_of_significand {k m : Nat} (hm : m ≤ 2 ^ 24) (hk : k ≠ 0 → 2 ^ 23 ≤ m) :
    (if (k * 2 ^ 23 + m) / 2 ^ 23 = 0 then (k * 2 ^ 23 + m) % 2 ^ 23
      else (2 ^ 23 + (k * 2 ^ 23 + m) % 2 ^ 23) * 2 ^ ((k * 2 ^ 23 + m) / 2 ^ 23 - 1)) = m * 2 ^ k := by
  rcases Nat.lt_or_ge m (2 ^ 23) with hsub | hnorm
  · obtain rfl : k = 0 := by
      by_contra h
      exact absurd (hk h) (Nat.not_le.mpr hsub)
    rw [if_pos (by omega)]
    omega
  · rw [if_neg (by omega)]
    rcases Nat.lt_or_eq_of_le hm with hlt | rfl
    · rw [show (k * 2 ^ 23 + m) / 2 ^ 23 - 1 = k by omega, show 2 ^ 23 + (k * 2 ^ 23 + m) % 2 ^ 23 = m by omega]
    · rw [show (k * 2 ^ 23 + 2 ^ 24) / 2 ^ 23 - 1 = k + 1 by omega,
        show 2 ^ 23 + (k * 2 ^ 23 + 2 ^ 24) % 2 ^ 23 = 2 ^ 23 by omega, Nat.pow_succ 2 k]
      omega

theorem units_natAbs (v : F32) : (units v).natAbs = unitsAbs v := by
  unfold units
  split
  · rw [Int.natAbs_neg, Int.natAbs_natCast]
  · rw [Int.natAbs_natCast]

/-- Every finite binary32 magnitude has 24 significant bits. -/
theorem exists_units_natAbs (v : F32) : ∃ n j, n < 2 ^ 24 ∧ (units v).natAbs = n * 2 ^ j := by
  have hf := (v.extractLsb' 0 23).isLt
  rw [units_natAbs]
  unfold unitsAbs
  dsimp only
  split
  · exact ⟨(v.extractLsb' 0 23).toNat, 0, by omega, by rw [Nat.pow_zero, Nat.mul_one]⟩
  · exact ⟨2 ^ 23 + (v.extractLsb' 0 23).toNat, _, by omega, rfl⟩

theorem f32_msb (num : Int) (den : Nat) : (f32 num den).msb = decide (num < 0) := by
  rw [f32, BitVec.msb_append, if_neg (by decide), BitVec.msb_ofBool]

/-- A finite result is not the pattern of infinity that stands for numbers beyond the format. -/
theorem roundMagnitude_of_finite {num : Int} {den : Nat} (h : FiniteF32 (f32 num den)) :
    roundMagnitude num.natAbs den = lastPlace num.natAbs den * 2 ^ 23 + significand num.natAbs den ∧
    roundMagnitude num.natAbs den < 2 ^ 31 := by
  rw [roundMagnitude_eq]
  split
  · exact ⟨rfl, by omega⟩
  · rename_i hge
    rw [f32, roundMagnitude_eq, if_neg hge] at h
    revert h
    cases decide (num < 0) <;> simp [FiniteF32]

/-- The value of a finite result: the rounded significand at its place, with the sign of the number. -/
theorem units_f32_of_finite {num : Int} {den : Nat} (hden : 0 < den) (h : FiniteF32 (f32 num den)) :
    units (f32 num den) =
      if num < 0 then - ((significand num.natAbs den * 2 ^ lastPlace num.natAbs den : Nat) : Int)
      else ((significand num.natAbs den * 2 ^ lastPlace num.natAbs den : Nat) : Int) := by
  obtain ⟨hbits, hlt⟩ := roundMagnitude_of_finite h
  obtain ⟨hm, hk⟩ := significand_bounds num.natAbs hden
  rw [f32, units_of_parts _ hlt, hbits]
  dsimp only
  rw [magnitude_of_significand hm hk]
  simp only [decide_eq_true_eq]

/-- The last bit of a finite result is the last bit of its significand. -/
theorem f32_getLsbD_zero {num : Int} {den : Nat} (h : FiniteF32 (f32 num den))
    (heven : significand num.natAbs den % 2 = 0) : (f32 num den).getLsbD 0 = false := by
  obtain ⟨hbits, -⟩ := roundMagnitude_of_finite h
  rw [f32, BitVec.getLsbD_append, if_pos (by decide), hbits, BitVec.getLsbD_ofNat, Nat.testBit_zero]
  simp only [Bool.and_eq_false_iff, decide_eq_false_iff_not]
  omega

/-! ### Rounding with the sign -/

/-- A magnitude that is nearest among magnitudes, 0 among them, is nearest to a number that is not negative among signed
values. -/
theorem nearest_of_natAbs {A P q : Nat} {w : Int} {evenLast : Prop} (hq : 0 < q)
    (hsame : ((A * q : Nat) - (P : Int)).natAbs ≤ ((w.natAbs * q : Nat) - (P : Int)).natAbs ∧
      (((A * q : Nat) - (P : Int)).natAbs = ((w.natAbs * q : Nat) - (P : Int)).natAbs → w.natAbs = A ∨ evenLast))
    (hzero : ((A * q : Nat) - (P : Int)).natAbs ≤ P ∧ (((A * q : Nat) - (P : Int)).natAbs = P → 0 = A ∨ evenLast)) :
    ((A : Int) * q - P).natAbs ≤ (w * q - P).natAbs ∧ (((A : Int) * q - P).natAbs = (w * q - P).natAbs → w = A ∨ evenLast) := by
  obtain ⟨hbest, htie⟩ := hsame
  obtain ⟨hbest0, htie0⟩ := hzero
  rw [← Int.natCast_mul]
  rcases Int.natAbs_eq w with hw | hw
  · rw [hw, ← Int.natCast_mul]
    exact ⟨hbest, fun h => (htie h).imp_left (congrArg _)⟩
  · rw [hw, Int.neg_mul, ← Int.natCast_mul]
    refine ⟨by omega, fun h => ?_⟩
    have hprod : w.natAbs * q = 0 := by omega
    have hw0 : w.natAbs = 0 := (Nat.mul_eq_zero.mp hprod).resolve_right hq.ne'
    rcases htie0 (by omega) with hA | hA
    · exact .inl (by rw [hw0, ← hA]; rfl)
    · exact .inr hA

/-- `f32` is nearest among all finite values, and even where another is as near. -/
theorem f32_nearest {num : Int} {den : Nat} (hden : 0 < den) (h : FiniteF32 (f32 num den)) (v : F32) :
    (units (f32 num den) * den - num * 2 ^ 149).natAbs ≤ (units v * den - num * 2 ^ 149).natAbs ∧
    ((units (f32 num den) * den - num * 2 ^ 149).natAbs = (units v * den - num * 2 ^ 149).natAbs →
      units v = units (f32 num den) ∨ significand num.natAbs den % 2 = 0) := by
  obtain ⟨n, j, hn, hv⟩ := exists_units_natAbs v
  have hsame := significand_nearest num.natAbs hden hn j
  have hzero := significand_nearest num.natAbs hden (n := 0) (by decide) 0
  rw [← hv] at hsame
  simp only [Nat.zero_mul, Nat.cast_zero, Int.zero_sub, Int.natAbs_neg, Int.natAbs_natCast] at hzero
  rw [units_f32_of_finite hden h]
  split
  · rename_i hneg
    have hnum : num * 2 ^ 149 = - ((num.natAbs * 2 ^ 149 : Nat) : Int) := by
      rw [Int.natCast_mul, ← Int.neg_mul, show - (num.natAbs : Int) = num by omega]
      rfl
    have hflip (x : Int) : (x * den - num * 2 ^ 149).natAbs = (-x * den - (num.natAbs * 2 ^ 149 : Nat)).natAbs := by
      rw [hnum, ← Int.natAbs_neg]
      congr 1
      ring
    obtain ⟨hbest, htie⟩ := nearest_of_natAbs (w := - units v) hden (by rwa [Int.natAbs_neg]) hzero
    rw [hflip, hflip, Int.neg_neg]
    exact ⟨hbest, fun heq => (htie heq).imp_left neg_eq_iff_eq_neg.mp⟩
  · rename_i hpos
    have hnum : num * 2 ^ 149 = ((num.natAbs * 2 ^ 149 : Nat) : Int) := by
      rw [Int.natCast_mul, show (num.natAbs : Int) = num by omega]
      rfl
    rw [hnum]
    exact nearest_of_natAbs hden hsame hzero

/-! ### The obligation -/

/-- Settles O44: the significand is rounded to nearest even at its last place, values of other binades are no nearer, and the last
bit of the pattern is that of the significand. -/
theorem f32IsNearestEven : Obligations.F32IsNearestEven := by
  unfold Obligations.F32IsNearestEven
  refine ⟨fun num den hden h => ⟨f32_msb num den, fun v _ => ?_⟩, fun _ _ => ⟨rfl, rfl⟩⟩
  obtain ⟨hbest, htie⟩ := f32_nearest hden h v
  rw [Int.abs_eq_natAbs, Int.abs_eq_natAbs, Int.natCast_inj, Int.ofNat_le]
  exact ⟨hbest, fun heq => (htie heq).imp_right (f32_getLsbD_zero h)⟩

end Sys2Proof.Machine
end

section
/-!
PROOFS. The readings (spec/41_decoder.md): the layout of a reading and of its response (R130, R131, R134, R140), how far each
rounding of R137 is from its number, and from that the properties of the values (R138, R139, R142, R143).
-/

namespace Sys2Proof.Machine

/-! ### The layout of a reading (R130, R131, R134) -/

/-- The mask of R134 replaces the two low bits by zeros. -/
theorem and_mask_eq_append (lsb : Byte) : lsb &&& 0xFC = lsb.extractLsb 7 2 ++ 0b00#2 := by
  revert lsb
  decide

theorem xor_one_and_mask (lsb : Byte) : (lsb ^^^ 0x01) &&& 0xFC = lsb &&& 0xFC := by
  revert lsb
  decide

theorem raw16_eq_append (msb lsb : Byte) : raw16 msb lsb = raw14 msb lsb ++ 0b00#2 := by
  rw [raw16, and_mask_eq_append]
  exact BitVec.append_assoc'

theorem raw14_toNat (msb lsb : Byte) : (raw14 msb lsb).toNat = 64 * msb.toNat + lsb.toNat / 4 := by
  have hlsb := lsb.isLt
  have hfield : (lsb.extractLsb 7 2).toNat = lsb.toNat / 4 := by
    rw [BitVec.extractLsb_toNat, Nat.shiftRight_eq_div_pow]
    omega
  rw [raw14, BitVec.toNat_append, ← Nat.shiftLeft_add_eq_or_of_lt (lsb.extractLsb 7 2).isLt, Nat.shiftLeft_eq, hfield]
  omega

theorem raw16_toNat (msb lsb : Byte) : (raw16 msb lsb).toNat = 4 * (raw14 msb lsb).toNat := by
  rw [raw16_eq_append, toNat_append_two_zeros]

/-- Bit 0 of `lsb` is neither the status bit nor a measurement bit (R131). -/
theorem exec_decDecode_xor_one (kind : MeasurementKind) (msb lsb : Byte) (s : State) :
    exec (.decDecode kind msb (lsb ^^^ 0x01)) s = exec (.decDecode kind msb lsb) s := by
  have hstatus : statusBit (lsb ^^^ 0x01) = statusBit lsb := by
    rw [statusBit, BitVec.getLsbD_xor]
    exact Bool.xor_false _
  simp only [exec, execDecDecode, hstatus, raw16, xor_one_and_mask]

/-! ### The response (R140) -/

theorem bytes16_raw16 (msb lsb : Byte) : bytes16 (raw16 msb lsb) = [msb, lsb &&& 0xFC] := by
  rw [bytes16, raw16, BitVec.extractLsb'_append_eq_left, BitVec.extractLsb'_append_eq_right]

/-- The four bytes of a 32-bit result, put together again. -/
theorem append_bytes32 (v : BitVec 32) :
    v.extractLsb' 24 8 ++ v.extractLsb' 16 8 ++ v.extractLsb' 8 8 ++ v.extractLsb' 0 8 = v := by
  have h32 : v.extractLsb' 24 8 ++ v.extractLsb' 16 8 = v.extractLsb' 16 16 :=
    BitVec.extractLsb'_append_extractLsb'_eq_extractLsb' (start₁ := 16) (len₁ := 8) rfl
  have h21 : v.extractLsb' 16 16 ++ v.extractLsb' 8 8 = v.extractLsb' 8 24 :=
    BitVec.extractLsb'_append_extractLsb'_eq_extractLsb' (start₁ := 8) (len₁ := 8) rfl
  rw [h32, h21]
  exact BitVec.extractLsb'_append_extractLsb' (w := 24) (len := 8)

/-! ### How far a rounding is from its number (R14) -/

/-- A number below 2^(24 + `e`) is moved by at most half of 2^`e`. -/
theorem roundUnits_near {u e : Nat} (h : u < 2 ^ (24 + e)) :
    2 * roundUnits u ≤ 2 * u + 2 ^ e ∧ 2 * u ≤ 2 * roundUnits u + 2 ^ e := by
  have hk : Nat.log2 u - 23 ≤ e := by
    by_cases h0 : u = 0
    · subst h0
      exact Nat.zero_le e
    · have := (Nat.log2_lt h0).mpr h
      omega
  have hplace : 2 ^ (Nat.log2 u - 23) ≤ 2 ^ e := Nat.pow_le_pow_right (by decide) hk
  obtain ⟨hlo, hhi⟩ := roundHalfEven_near u (Nat.two_pow_pos (Nat.log2 u - 23))
  unfold roundUnits
  dsimp only
  omega

theorem roundUnitsInt_near {z : Int} {e : Nat} (h : z.natAbs < 2 ^ (24 + e)) :
    2 * (roundUnitsInt z - z).natAbs ≤ 2 ^ e := by
  obtain ⟨hlo, hhi⟩ := roundUnits_near h
  unfold roundUnitsInt
  generalize 2 ^ e = place at *
  split <;> omega

/-- A rounded number is within a factor of two of the number, so only zero is rounded to zero. -/
theorem roundUnits_bounds (u : Nat) : u ≤ 2 * roundUnits u ∧ roundUnits u ≤ 2 * u := by
  by_cases h0 : u = 0
  · subst h0
    decide
  · have hplace : 2 ^ (Nat.log2 u - 23) ≤ u :=
      Nat.le_trans (Nat.pow_le_pow_right (by decide) (Nat.sub_le _ _)) (Nat.log2_self_le h0)
    obtain ⟨hlo, hhi⟩ := roundHalfEven_near u (Nat.two_pow_pos (Nat.log2 u - 23))
    unfold roundUnits
    dsimp only
    omega

theorem roundUnits_eq_self {u : Nat} (h : u < 2 ^ 24) : roundUnits u = u := by
  have := roundUnits_exact 0 h
  rwa [Nat.pow_zero, Nat.mul_one] at this

theorem roundUnitsInt_natCast (u : Nat) : roundUnitsInt u = roundUnits u := by
  rw [roundUnitsInt, if_neg (by omega), Int.natAbs_natCast]

theorem roundUnitsInt_eq_self {z : Int} (h : z.natAbs < 2 ^ 24) : roundUnitsInt z = z := by
  rw [roundUnitsInt, roundUnits_eq_self h]
  split <;> omega

theorem units_eq_ite (v : F32) : units v = if v.msb then - ((units v).natAbs : Int) else ((units v).natAbs : Int) := by
  rw [units_natAbs]
  rfl

/-- A pattern is its sign bit and the 31 bits below. -/
theorem eq_msb_append (v : F32) : v = BitVec.ofBool v.msb ++ BitVec.ofNat 31 (v.toNat % 2 ^ 31) := by
  apply BitVec.eq_of_toNat_eq
  have hv := v.isLt
  rw [BitVec.toNat_append, BitVec.toNat_ofNat, Nat.mod_mod, ← Nat.shiftLeft_add_eq_or_of_lt (Nat.mod_lt _ (by decide)),
    BitVec.toNat_ofBool, BitVec.msb_eq_decide, Nat.shiftLeft_eq]
  by_cases h : 2 ^ (32 - 1) ≤ v.toNat
  · simp only [h, decide_true, Bool.toNat_true]
    omega
  · simp only [h, decide_false, Bool.toNat_false]
    omega

/-- A value of normal size is rounded to itself, as a pattern. -/
theorem f32_units_of_normal {v : F32} (hv : NormalF32 v) (hlt : (units v).natAbs < 2 ^ 250) : f32 (units v) (2 ^ 149) = v := by
  obtain ⟨he, -⟩ := hv
  have hf := (v.extractLsb' 0 23).isLt
  have hval : (units v).natAbs = (2 ^ 23 + (v.extractLsb' 0 23).toNat) * 2 ^ ((v.extractLsb' 23 8).toNat - 1) := by
    rw [units_natAbs, unitsAbs]
    exact if_neg (by omega)
  have hfields : v.toNat % 2 ^ 31 = (v.extractLsb' 23 8).toNat * 2 ^ 23 + (v.extractLsb' 0 23).toNat := by
    rw [BitVec.extractLsb'_toNat, BitVec.extractLsb'_toNat, Nat.shiftRight_eq_div_pow]
    omega
  obtain ⟨hbits, -⟩ := roundMagnitude_units hlt
  have hsign : decide (units v < 0) = v.msb := by
    have hpos : 0 < (units v).natAbs := by
      rw [hval]
      exact Nat.mul_pos (by omega) (Nat.two_pow_pos _)
    have := units_eq_ite v
    cases hm : v.msb
    · rw [hm, if_neg Bool.false_ne_true] at this
      exact decide_eq_false (by omega)
    · rw [hm, if_pos rfl] at this
      exact decide_eq_true (by omega)
  rw [f32, hsign, hbits]
  conv_rhs => rw [eq_msb_append v, hfields]
  generalize (v.extractLsb' 23 8).toNat = e at *
  generalize (v.extractLsb' 0 23).toNat = f at *
  have hne : (2 ^ 23 + f) * 2 ^ (e - 1) ≠ 0 := Nat.mul_ne_zero (by omega) (Nat.two_pow_pos _).ne'
  have hlog : Nat.log2 ((2 ^ 23 + f) * 2 ^ (e - 1)) = 23 + (e - 1) := by
    rw [Nat.log2_eq_iff hne, Nat.add_right_comm, Nat.pow_add, Nat.pow_add]
    exact ⟨Nat.mul_le_mul_right _ (by omega), Nat.mul_lt_mul_of_pos_right (by omega) (Nat.two_pow_pos _)⟩
  rw [hval, hlog, Nat.add_sub_cancel_left, roundHalfEven_mul _ (Nat.two_pow_pos _),
    show (e - 1) * 2 ^ 23 + (2 ^ 23 + f) = e * 2 ^ 23 + f by omega]

/-! ### The values of the readings (R137, R138) -/

/-- The value at `raw16` as a number of units of 2^(`unitShift` - 149). -/
def smallValue (kind : MeasurementKind) (raw : Nat) : Int :=
  roundUnitsInt ((roundUnits (mulSmall kind * raw) : Int) - subSmall kind)

theorem units_physicalValue_reading (kind : MeasurementKind) (v : BitVec 14) :
    units (physicalValue kind (v ++ 0b00#2)) = smallValue kind (4 * v.toNat) * (2 ^ unitShift kind : Nat) := by
  rw [units_physicalValue, toNat_append_two_zeros]
  rfl

/-- Every number that occurs for Humidity has at most 24 bits, so nothing is rounded. -/
theorem smallValue_humidity {n : Nat} (hn : n < 2 ^ 14) : smallValue .humidity (4 * n) = 125 * (4 * (n : Int)) - 393216 := by
  have hmul : mulSmall .humidity * (4 * n) = 500 * n := by
    rw [mulSmall]
    omega
  have hsub : ((500 * n : Nat) : Int) - subSmall .humidity = 125 * (4 * (n : Int)) - 393216 := by
    rw [subSmall]
    omega
  rw [smallValue, hmul, roundUnits_eq_self (by omega), hsub, roundUnitsInt_eq_self (by omega)]

/-- How far the value at `raw16` = 4 `n` is from R135's formula, in 1/6553600 of 2^-31. -/
def temperatureError (value : Int) (n : Nat) : Nat :=
  (value * 6553600 - (17572 * (4 * (n : Int)) - 4685 * 65536) * 2 ^ 31).natAbs

/-- Below 128 degrees the sum has at most 38 bits, and the two rounding errors and those of the constants stay below the bound
together. -/
theorem temperatureError_low {n : Nat} (hn : n < 16256) :
    temperatureError (smallValue .temperature (4 * n)) n ≤ 112 * 2 ^ 31 := by
  have hproduct : mulSmall .temperature * (4 * n) < 2 ^ (24 + 15) := by
    rw [mulSmall]
    omega
  obtain ⟨hlo, hhi⟩ := roundUnits_near hproduct
  have hsum : ((roundUnits (mulSmall .temperature * (4 * n)) : Int) - subSmall .temperature).natAbs < 2 ^ (24 + 14) := by
    rw [mulSmall] at *
    rw [subSmall]
    omega
  have hnear := roundUnitsInt_near hsum
  unfold temperatureError smallValue
  rw [mulSmall, subSmall] at *
  omega

/-- The bound at one reading, in the form the kernel evaluates. -/
def temperatureErrorOk (n : Nat) : Bool :=
  valueQuick .temperature (4 * n) fun negative magnitude =>
    decide (temperatureError (if negative then - (magnitude : Int) else (magnitude : Int)) n ≤ 112 * 2 ^ 31)

theorem temperatureErrorOk_high : allBelow temperatureErrorOk 7 127 = true := by decide +kernel

/-- From 128 degrees on, where the bound is reached, the 128 readings are evaluated. -/
theorem temperatureError_high {v : BitVec 14} (hv : 16256 ≤ v.toNat) :
    temperatureError (smallValue .temperature (4 * v.toNat)) v.toNat ≤ 112 * 2 ^ 31 := by
  have hlt := v.isLt
  have hok : temperatureErrorOk v.toNat = true := allBelow_spec temperatureErrorOk_high v.toNat (by omega) (by omega)
  obtain ⟨negative, magnitude, hquick, hunits⟩ := valueQuick_spec .temperature (v ++ 0b00#2)
  rw [toNat_append_two_zeros] at hquick
  rw [temperatureErrorOk, hquick, decide_eq_true_eq] at hok
  rw [units_physicalValue_reading] at hunits
  rwa [mul_right_cancel₀ (by simp [unitShift]) hunits]

theorem temperatureError_le (v : BitVec 14) :
    temperatureError (smallValue .temperature (4 * v.toNat)) v.toNat ≤ 112 * 2 ^ 31 := by
  rcases Nat.lt_or_ge v.toNat 16256 with hv | hv
  · exact temperatureError_low hv
  · exact temperatureError_high hv

/-! ### No special values (R142) -/

/-- No reading's exact value is within the error of zero. -/
theorem smallValue_bounds (kind : MeasurementKind) (v : BitVec 14) :
    smallValue kind (4 * v.toNat) ≠ 0 ∧ (smallValue kind (4 * v.toNat)).natAbs < 2 ^ 40 := by
  have hlt := v.isLt
  cases kind with
  | temperature =>
    have herr := temperatureError_le v
    unfold temperatureError at herr
    omega
  | humidity =>
    rw [smallValue_humidity hlt]
    omega

theorem smallValue_strictMono (kind : MeasurementKind) {v w : BitVec 14} (h : v.toNat < w.toNat) :
    smallValue kind (4 * v.toNat) < smallValue kind (4 * w.toNat) := by
  cases kind with
  | temperature =>
    have hv := temperatureError_le v
    have hw := temperatureError_le w
    unfold temperatureError at hv hw
    omega
  | humidity =>
    rw [smallValue_humidity v.isLt, smallValue_humidity w.isLt]
    omega

/-- A whole number of units, not zero, at a place that the readings use is of normal size. -/
theorem normalF32_of_place {v : F32} {m j : Nat} (hv : (units v).natAbs = m * 2 ^ j) (hm : 0 < m) (hlt : m < 2 ^ 40)
    (hj : 118 ≤ j ∧ j ≤ 133) : NormalF32 v ∧ (units v).natAbs < 2 ^ 250 := by
  obtain ⟨hlo, hhi⟩ := hj
  have hlower : 1 * 2 ^ 118 ≤ m * 2 ^ j := Nat.mul_le_mul hm (Nat.pow_le_pow_right (by decide) hlo)
  have hupper : m * 2 ^ j ≤ 2 ^ 40 * 2 ^ 133 := Nat.mul_le_mul hlt.le (Nat.pow_le_pow_right (by decide) hhi)
  have hbound : (units v).natAbs < 2 ^ 250 := by omega
  exact ⟨normalF32_of_units (by omega) hbound, hbound⟩

theorem unitShift_bounds (kind : MeasurementKind) : 118 ≤ unitShift kind ∧ unitShift kind ≤ 133 := by
  cases kind <;> decide

theorem mulSmall_bounds (kind : MeasurementKind) : 0 < mulSmall kind ∧ mulSmall kind < 2 ^ 23 := by
  cases kind <;> decide

theorem normalF32_physicalValue (kind : MeasurementKind) (v : BitVec 14) :
    NormalF32 (physicalValue kind (v ++ 0b00#2)) ∧ units (physicalValue kind (v ++ 0b00#2)) ≠ 0 := by
  obtain ⟨hne, hlt⟩ := smallValue_bounds kind v
  have hunits := units_physicalValue_reading kind v
  have hpow : ((2 ^ unitShift kind : Nat) : Int) ≠ 0 := by exact_mod_cast (Nat.two_pow_pos _).ne'
  obtain ⟨hnormal, -⟩ := normalF32_of_place (by rw [hunits, Int.natAbs_mul, Int.natAbs_natCast])
    (Int.natAbs_pos.mpr hne) hlt (unitShift_bounds kind)
  exact ⟨hnormal, by rw [hunits]; exact mul_ne_zero hne hpow⟩

/-- `t2` is +0 at `raw16` = 0 and of normal size elsewhere. -/
theorem scaledProduct_zero_or_normal (kind : MeasurementKind) (raw : BitVec 16) :
    scaledProduct kind raw = 0 ∨
      (NormalF32 (scaledProduct kind raw) ∧ (units (scaledProduct kind raw)).natAbs < 2 ^ 250) := by
  by_cases h0 : raw = 0
  · subst h0
    left
    cases kind <;> decide +kernel
  · right
    obtain ⟨hmul, hmul'⟩ := mulSmall_bounds kind
    have hraw : 0 < raw.toNat := Nat.pos_of_ne_zero fun h => h0 (BitVec.eq_of_toNat_eq h)
    have hpos : 0 < mulSmall kind * raw.toNat := Nat.mul_pos hmul hraw
    have hlt : mulSmall kind * raw.toNat < 2 ^ 23 * 2 ^ 16 := Nat.mul_lt_mul'' hmul' raw.isLt
    obtain ⟨hlo, hhi⟩ := roundUnits_bounds (mulSmall kind * raw.toNat)
    exact normalF32_of_place (by rw [units_scaledProduct, Int.natAbs_natCast]) (by omega)
      (by omega) (unitShift_bounds kind)

/-- `t1` is +0 at `raw16` = 0 and of normal size elsewhere, from 2^-14 to 1. -/
theorem scaledReading_zero_or_normal (v : BitVec 14) :
    scaledReading (v ++ 0b00#2) = 0 ∨ (NormalF32 (scaledReading (v ++ 0b00#2)) ∧
      2 ^ 135 ≤ units (scaledReading (v ++ 0b00#2)) ∧ units (scaledReading (v ++ 0b00#2)) < 2 ^ 149) := by
  by_cases h0 : v = 0
  · subst h0
    exact .inl (by decide +kernel)
  · right
    have hlt := v.isLt
    have hpos : 0 < v.toNat := Nat.pos_of_ne_zero fun h => h0 (BitVec.eq_of_toNat_eq h)
    have hunits := units_scaledReading (v ++ 0b00#2)
    rw [toNat_append_two_zeros] at hunits
    obtain ⟨hnormal, -⟩ := normalF32_of_place (by rw [hunits, Int.natAbs_natCast]) (by omega) (by omega) (by decide)
    exact ⟨hnormal, by omega, by omega⟩

/-! ### Where the division is placed (R137) -/

theorem units_kindMul (kind : MeasurementKind) : units (kindMul kind) = (mulSmall kind * 2 ^ (unitShift kind + 16) : Nat) := by
  cases kind <;> decide

/-- Multiplying before dividing rounds the same significand, 16 places higher. -/
theorem units_mulF_undivided (kind : MeasurementKind) (raw : BitVec 16) :
    units (mulF (kindMul kind) (f32 raw.toNat 1)) = units (scaledProduct kind raw) * (2 ^ 16 : Nat) := by
  obtain ⟨-, hmul⟩ := mulSmall_bounds kind
  obtain ⟨-, hshift⟩ := unitShift_bounds kind
  have hproduct : ((mulSmall kind * 2 ^ (unitShift kind + 16) : Nat) : Int) * ((raw.toNat * 2 ^ 149 : Nat) : Int) =
      ((mulSmall kind * raw.toNat : Nat) : Int) * ((2 ^ (unitShift kind + 16) : Nat) : Int) * ((2 ^ 149 : Nat) : Int) := by
    push_cast
    ring
  have hlt : mulSmall kind * raw.toNat * 2 ^ (unitShift kind + 16) < 2 ^ 250 := by
    calc mulSmall kind * raw.toNat * 2 ^ (unitShift kind + 16)
      _ ≤ 2 ^ 23 * 2 ^ 16 * 2 ^ (133 + 16) := Nat.mul_le_mul (Nat.mul_le_mul hmul.le raw.isLt.le)
          (Nat.pow_le_pow_right (by decide) (by omega))
      _ < 2 ^ 250 := by decide
  rw [mulF, units_kindMul, units_f32_raw, hproduct, f32_scale _ _ (Nat.two_pow_pos 149),
    units_f32_units _ (by rwa [← Int.natCast_mul, Int.natAbs_natCast]), roundUnitsInt_shift, roundUnitsInt_natCast,
    units_scaledProduct, Nat.pow_add]
  push_cast
  ring

theorem divF_mulF_undivided (kind : MeasurementKind) (raw : BitVec 16) :
    divF (mulF (kindMul kind) (f32 raw.toNat 1)) Config.scale = scaledProduct kind raw := by
  have hs : unitsAbs Config.scale = 2 ^ 149 * 2 ^ 16 := by decide
  rw [divF, hs, units_mulF_undivided, f32_scale _ _ (Nat.two_pow_pos 16)]
  rcases scaledProduct_zero_or_normal kind raw with h | ⟨hnormal, hlt⟩
  · rw [h]
    decide
  · exact f32_units_of_normal hnormal hlt

/-! ### The obligations -/

/-- Settles O38: the two bytes are the 14 measurement bits above two zero bits. -/
theorem rawReadingLayout : Obligations.RawReadingLayout := by
  unfold Obligations.RawReadingLayout
  intro msb lsb
  refine ⟨?_, raw16_toNat msb lsb, fun i hi => ?_, fun i hi => ?_⟩
  · rw [raw16_toNat, raw14_toNat]
    omega
  · rw [raw14, BitVec.getLsbD_append, if_pos hi, BitVec.getLsbD_extractLsb, decide_eq_true hi, Bool.true_and,
      Nat.add_comm]
  · rw [raw14, BitVec.getLsbD_append, if_neg (by omega), Nat.add_sub_cancel]

/-- Settles O39: the response is `raw16` as its two bytes and the value as its four. -/
theorem decodeReturnsRawAndValue : Obligations.DecodeReturnsRawAndValue := by
  unfold Obligations.DecodeReturnsRawAndValue
  intro kind msb lsb s h
  have hanswer := exec_decDecode_of_statusBit_eq (kind := kind) h msb s
  rw [bytes16_raw16] at hanswer
  exact ⟨_, _, _, _, hanswer, append_bytes32 _⟩

/-- Settles O41: neither the status bit nor the masked byte has bit 0. -/
theorem reservedBitIsIgnored : Obligations.ReservedBitIsIgnored := by
  unfold Obligations.ReservedBitIsIgnored
  exact exec_decDecode_xor_one

/-- Settles O45: both intermediates of R137 are exact, and the product is rounded alike before and after the division. -/
theorem valueIsTwoRoundings : Obligations.ValueIsTwoRoundings := by
  unfold Obligations.ValueIsTwoRoundings
  intro kind raw mul add
  have hmul : mul = kindMul kind := by cases kind <;> rfl
  have hadd : add = kindAdd kind := by cases kind <;> rfl
  rw [hmul, hadd]
  refine ⟨f32 raw.toNat 1, scaledReading raw, ?_, ?_, rfl, ?_⟩
  · rw [units_f32_raw]
    omega
  · rw [units_scaledReading]
    omega
  · rw [show (0x47800000 : F32) = Config.scale from rfl, divF_mulF_undivided]
    rfl

/-- Settles O46: `t1`, `t2` and the value are of normal size where they are not +0, and no value is within its error
of zero. -/
theorem noSpecialValues : Obligations.NoSpecialValues := by
  unfold Obligations.NoSpecialValues
  exact fun kind v => ⟨scaledReading_zero_or_normal v, (scaledProduct_zero_or_normal kind _).imp_right And.left,
    normalF32_physicalValue kind v⟩

/-- Settles O47: nothing is rounded for Humidity. -/
theorem humidityIsExact : Obligations.HumidityIsExact := by
  unfold Obligations.HumidityIsExact
  intro v
  rw [units_physicalValue_reading, smallValue_humidity v.isLt, unitShift]
  omega

/-- Settles O48: below 128 degrees by the sizes of the two roundings, above by evaluating the readings, among which is the one
that reaches the bound. -/
theorem temperatureErrorBound : Obligations.TemperatureErrorBound := by
  unfold Obligations.TemperatureErrorBound
  refine ⟨fun v => ?_, by decide +kernel⟩
  have herr := temperatureError_le v
  rw [units_physicalValue_reading, unitShift, Int.abs_eq_natAbs]
  unfold temperatureError at herr
  omega

/-- Settles O49: a step of `raw14` moves the exact value by more than two errors. -/
theorem valueIsStrictlyMonotonic : Obligations.ValueIsStrictlyMonotonic := by
  unfold Obligations.ValueIsStrictlyMonotonic
  intro kind v w h
  rw [units_physicalValue_reading, units_physicalValue_reading]
  exact mul_lt_mul_of_pos_right (smallValue_strictMono kind h) (by exact_mod_cast Nat.two_pow_pos _)

/-- Settles O50: the notable results, evaluated. -/
theorem noClamping : Obligations.NoClamping := by
  unfold Obligations.NoClamping
  decide +kernel

end Sys2Proof.Machine
end
